-- ==== Sys2Proof/Config.lean ====
section
/-! DEFINITION. The fixed parameters of the hardware (spec R5), the parameters a model takes as arguments (R6),
and the host's side of them. -/

namespace Sys2Proof

/-- SIGN_SPLIT (R5): words from here on decode to negative values. -/
@[simp] abbrev Config.signSplit : Nat := 500

/-- WORD_MOD (R5): words are integers 0..999. -/
@[simp] abbrev Config.wordMod : Nat := 1000

/-- OP_DIV (R5): opcode = word div 100, operand = word mod 100. -/
@[simp] abbrev Config.opDiv : Nat := 100

/-- N_MEM (R5): number of memory cells. -/
@[simp] abbrev Config.nMem : Nat := 100

/-- N_LOAD_MAX (R5): the longest program the load accepts. -/
@[simp] abbrev Config.nLoadMax : Nat := 100

/-- INP_MIN (R5): the least input INP accepts as it is. -/
@[simp] abbrev Config.inpMin : Int := -999

/-- INP_MAX (R5): the greatest input INP accepts as it is. -/
@[simp] abbrev Config.inpMax : Int := 999

/-- IO_FN_INP (R5): the operand of opcode 9 that selects INP. -/
@[simp] abbrev Config.ioFnInp : Nat := 1

/-- IO_FN_OUT (R5): the operand of opcode 9 that selects OUT. -/
@[simp] abbrev Config.ioFnOut : Nat := 2

/-- The values of IO_OTHER_OPERAND (R6, D4): what opcode 9 does with an operand other than 1 or 2. -/
inductive IoOther where
  /-- raise InvalidInstruction (the default) -/
  | fault
  /-- no effect, as in the original repository -/
  | nop
  deriving DecidableEq, Repr

/-- The open parameters that act on the core (R6). They are plain data and fixed for a machine: State carries
them, no step changes them, and a statement about every state holds for every choice. -/
structure Config where
  /-- IO_OTHER_OPERAND (D4) -/
  ioOtherOperand : IoOther
  /-- CANCEL_PRESENT (D13): whether the cancel input exists -/
  cancelPresent : Bool
  deriving DecidableEq, Repr

/-- The defaults R6 gives: Fault, and a cancel input that exists. -/
def Config.default : Config := { ioOtherOperand := .fault, cancelPresent := true }

/-- The host's answer to an input request (R132): an integer of any size, or Fail. -/
inductive InAnswer where
  | ok (n : Int)
  | fail
  deriving DecidableEq, Repr

/-- The host's own parameters (R6, R137, R171): none acts on the core. The functions of Machine/HostText take them
as an argument, so a statement about host text holds for every choice. -/
structure HostParams where
  /-- HOST_PARSE (D7): from a line of text to the answer -/
  parse : String → InAnswer
  /-- RENDER_NEWLINE_PROMPT (D10) -/
  newlinePrompt : Bool
  /-- RENDER_NEWLINE_DIAG (D10) -/
  newlineDiag : Bool
  /-- EXIT_SUCCESS (D16) -/
  exitSuccess : Int
  /-- EXIT_STOPPED (D16) -/
  exitStopped : Int
  /-- the system error description of an input read failure (R171, U6) -/
  inputErrorText : String

end Sys2Proof
end

