-- ==== Sys2Proof/Word.lean ====
section
/-! DEFINITION. The number types of spec R8: no value of this machine is a bit vector. -/

namespace Sys2Proof

/-- A Word (R20, D2): an integer 0..999, the content of a memory cell or of the accumulator. -/
abbrev Word := Fin 1000

/-- A memory address or operand (R8): an integer 0..99. -/
abbrev Addr := Fin 100

/-- A value of the program counter (R26, D3): an integer 0..100. -/
abbrev PcVal := Fin 101

/-- The decimal digits of R8, numbered from the least significant: digit 0, 1, 2. -/
def Word.digit (w : Word) (k : Nat) : Nat := w.val / 10 ^ k % 10

end Sys2Proof
end

