-- ==== Sys2Proof/Machine/State.lean ====
section
/-! DEFINITION. The state of the machine (spec R20 to R33), the reasons a step can stop, and the state after reset. -/

namespace Sys2Proof.Machine

/-- The status register ST (R27). -/
inductive Status where
  /-- after reset, before a load is accepted (R180) -/
  | idle
  /-- a run is in progress -/
  | running
  /-- ended by HLT (R156) -/
  | halted
  /-- ended by a fault (R157) -/
  | faulted
  /-- ended by the host's cancel (R162) -/
  | stopped
  deriving DecidableEq, Repr

/-- The contents of the fault record FR when it is not None (R28). The address of InvalidInstruction and of
InputReadError is `PC - 1` as an exact integer (R152, R153). -/
inductive FaultRecord where
  | pcOutOfBounds (pc : PcVal)
  | invalidInstruction (opcode : Nat) (address : Int)
  | inputReadError (address : Int)
  deriving DecidableEq, Repr

/-- An output event (R131). -/
inductive OutEvent where
  /-- emitted by every INP before it asks for input -/
  | prompt
  /-- emitted by an INP whose answer is out of range -/
  | invalidInputDiag
  /-- emitted by OUT, with the signed value of the accumulator -/
  | value (v : Int)
  deriving DecidableEq, Repr

/-- One memory cell that does not hold 0. The machine has no bytes (R54), so the unit is the Word. -/
abbrev Cell := Nat × Word

/-- The memory (R50) as the list of its cells that differ from 0, addresses strictly rising (`Memory.wf`); a cell
that is not listed holds `Memory.unlisted`. -/
abbrev Memory := List Cell

/-- What a cell nothing was written to holds: 0 (R31, MEM_RESET of R5). -/
def Memory.unlisted : Word := 0

/-- The state. The first eight fields are what the spec gives the machine; the last three stand for what is outside
the core: the host's coming answers, the level of its cancel input, and the parameters. -/
structure State where
  /-- memory (R50) -/
  mem : Memory
  /-- ACC (R24) -/
  acc : Word
  /-- PC (R26) -/
  pc : PcVal
  /-- ST (R27) -/
  st : Status
  /-- FR (R28) -/
  fr : Option FaultRecord
  /-- OUTQ (R29), oldest event first -/
  outq : List OutEvent
  /-- IW (R30): the fetched word, held only inside a cycle, so between steps only while an INP waits -/
  iw : Option Word
  /-- an input request is outstanding: the core is in the middle of an INP's cycle (R30, R132) -/
  inReq : Bool
  /-- the host's answers to the coming requests, first first (R132); the host's, not the core's (R29) -/
  script : List InAnswer
  /-- the level of the cancel input (R7, R92); the host's, not the core's -/
  cancel : Bool
  /-- the parameters a model takes as arguments (R6); never changes -/
  cfg : Config
  deriving DecidableEq, Repr

/-- The opcode held inside a cycle: `IW div 100` (R30). -/
def State.heldOpcode (s : State) : Option Nat := s.iw.map (fun w => w.val / 100)

/-- The operand held inside a cycle: `IW mod 100` (R30). -/
def State.heldOperand (s : State) : Option Nat := s.iw.map (fun w => w.val % 100)

/-- The reasons a step stops with no next state: there are none. The spec describes what every fault of the core
leaves (R157, R158), so each is a next state with ST = Faulted, and nothing raises a `Fault` (log entry 11). -/
inductive Fault where
  deriving DecidableEq, Repr

/-- The reasons a step has no meaning. -/
inductive Refusal where
  /-- raised by an arm of exec whose instruction has no meaning yet; safe (nothing is claimed of it). No arm of this
  model is left so. -/
  | notModelled (mnemonic : String)
  deriving DecidableEq, Repr

/-- The state after reset under given parameters (R31, R180): memory 0, ACC 0, PC 0, ST Idle, FR None, OUTQ empty,
nothing held between cycles. The host's side starts with no answer given and cancel not asserted (DESIGN CHOICE, log
entries 4 and 7). -/
def State.resetWith (c : Config) : State :=
  { mem := [], acc := 0, pc := 0, st := .idle, fr := none, outq := [], iw := none, inReq := false,
    script := [], cancel := false, cfg := c }

/-- The state after reset with the parameters at the spec's defaults (R6, log entry 8). -/
def State.reset : State := State.resetWith Config.default

end Sys2Proof.Machine
end

