-- ==== Sys2Proof/Machine/Datapath.lean ====
section
/-! DEFINITION. The signed-value conversion of the datapath (spec R21, R22) and the ALU (R100). -/

namespace Sys2Proof.Machine

/-- The spec's `decode(w)` (R21): thousands complement. -/
def decodeSigned (w : Word) : Int :=
  if Config.signSplit ≤ w.val then (w.val : Int) - Config.wordMod else w.val

/-- The spec's `encode(x)` (R22): the Euclidean residue modulo 1000 of any integer. -/
def encodeSigned (x : Int) : Word :=
  ⟨(x % (Config.wordMod : Int)).toNat, by
    have h1 : 0 ≤ x % (1000 : Int) := Int.emod_nonneg x (by decide)
    have h2 : x % (1000 : Int) < 1000 := Int.emod_lt_of_pos x (by decide)
    show (x % (1000 : Int)).toNat < 1000
    omega⟩

/-- The three ALU operations (R100). -/
inductive AluOp where
  | add
  | sub
  | mul
  deriving DecidableEq, Repr

/-- The exact integer result of an ALU operation, before encode (R100). -/
def aluExact (op : AluOp) (x y : Int) : Int :=
  match op with
  | .add => x + y
  | .sub => x - y
  | .mul => x * y

/-- The ALU (R100): decode both operands, compute exactly, encode once. -/
def alu (op : AluOp) (x y : Word) : Word := encodeSigned (aluExact op (decodeSigned x) (decodeSigned y))

end Sys2Proof.Machine
end

