-- ==== Sys2Proof/Syntax.lean ====
section
/-! DEFINITION. The instructions: one constructor per row of the opcode table (spec R74, R81). -/

namespace Sys2Proof

/-- One constructor per row of opcode_table.json, in the table's order. The operand is the two-digit field
`w mod 100` (R72), so it is an address by its type. -/
inductive Instr where
  /-- 0aa (R120): the operand digits are ignored; they are kept here so that no digit of the word is lost. -/
  | hlt (a : Addr)
  /-- 1aa (R101) -/
  | add (a : Addr)
  /-- 2aa (R102) -/
  | sub (a : Addr)
  /-- 3aa (R111) -/
  | sta (a : Addr)
  /-- 4aa (R103) -/
  | mul (a : Addr)
  /-- 5aa (R110) -/
  | lda (a : Addr)
  /-- 6aa (R121) -/
  | bra (a : Addr)
  /-- 7aa (R122) -/
  | brz (a : Addr)
  /-- 8aa (R123) -/
  | brp (a : Addr)
  /-- 901 (R133) -/
  | inp
  /-- 902 (R134) -/
  | out
  /-- 9aa with an operand other than 1 or 2 (R75, R130): the table's row ILLEGAL_9. -/
  | illegal9 (a : Addr)
  deriving DecidableEq, Repr

end Sys2Proof
end

