-- ==== Sys2Proof/WellFormed.lean ====
section
/-! DEFINITION. Which terms of Instr are instructions of the machine. -/

namespace Sys2Proof

/-- The one check the types leave: an illegal opcode-9 word has an operand other than 1 and 2 (R75, R81), for
those two operands are INP and OUT. -/
def Instr.wellFormed (i : Instr) : Bool :=
  match i with
  | .illegal9 a => a.val != Config.ioFnInp && a.val != Config.ioFnOut
  | .hlt _ => true
  | .add _ => true
  | .sub _ => true
  | .sta _ => true
  | .mul _ => true
  | .lda _ => true
  | .bra _ => true
  | .brz _ => true
  | .brp _ => true
  | .inp => true
  | .out => true

end Sys2Proof
end

