-- ==== Sys2Proof/Decode.lean ====
section
/-! DEFINITION. The instruction decoder (spec R70 to R77), total on every number a cell could hold, the encoder
written from the same map, and the opcode table's own digit patterns (R81). -/

namespace Sys2Proof

/-- What the decoder answers: an instruction, or a value whose opcode is outside 0..9 (R76). -/
inductive DecodeResult where
  | instr (i : Instr)
  | invalidOpcode (opcode : Nat)
  deriving DecidableEq, Repr

/-- The opcode extractor (R71). -/
def opcodeOf (w : Nat) : Nat := w / Config.opDiv

/-- The operand address extractor (R72). -/
def operandOf (w : Nat) : Addr := ⟨w % Config.opDiv, Nat.mod_lt w (by decide)⟩

/-- Opcode 9 is arbitrated by its operand (R130). -/
def decodeIo (a : Addr) : Instr :=
  if a.val = Config.ioFnInp then .inp
  else if a.val = Config.ioFnOut then .out
  else .illegal9 a

/-- The opcode map (R74), with the last arm of R76 for a value of 1000 or more. -/
def decode (w : Nat) : DecodeResult :=
  match opcodeOf w with
  | 0 => .instr (.hlt (operandOf w))
  | 1 => .instr (.add (operandOf w))
  | 2 => .instr (.sub (operandOf w))
  | 3 => .instr (.sta (operandOf w))
  | 4 => .instr (.mul (operandOf w))
  | 5 => .instr (.lda (operandOf w))
  | 6 => .instr (.bra (operandOf w))
  | 7 => .instr (.brz (operandOf w))
  | 8 => .instr (.brp (operandOf w))
  | 9 => .instr (decodeIo (operandOf w))
  | op => .invalidOpcode op

/-- The word of an opcode digit and an operand: `100*d2 + 10*d1 + d0` (R70). -/
def packWord (op : Fin 10) (a : Addr) : Word :=
  ⟨op.val * 100 + a.val, by omega⟩

/-- The opcode digit of an instruction (R74). -/
def Instr.opcode (i : Instr) : Fin 10 :=
  match i with
  | .hlt _ => 0
  | .add _ => 1
  | .sub _ => 2
  | .sta _ => 3
  | .mul _ => 4
  | .lda _ => 5
  | .bra _ => 6
  | .brz _ => 7
  | .brp _ => 8
  | .inp => 9
  | .out => 9
  | .illegal9 _ => 9

/-- The operand field of an instruction (R72, R130). -/
def Instr.operand (i : Instr) : Addr :=
  match i with
  | .hlt a => a
  | .add a => a
  | .sub a => a
  | .sta a => a
  | .mul a => a
  | .lda a => a
  | .bra a => a
  | .brz a => a
  | .brp a => a
  | .inp => 1
  | .out => 2
  | .illegal9 a => a

/-- The one word of an instruction (R70, R74). -/
def encode (i : Instr) : Word := packWord i.opcode i.operand

/-- The mnemonic of the row an instruction belongs to (R74, R81). -/
def Instr.mnemonic (i : Instr) : String :=
  match i with
  | .hlt _ => "HLT"
  | .add _ => "ADD"
  | .sub _ => "SUB"
  | .sta _ => "STA"
  | .mul _ => "MUL"
  | .lda _ => "LDA"
  | .bra _ => "BRA"
  | .brz _ => "BRZ"
  | .brp _ => "BRP"
  | .inp => "INP"
  | .out => "OUT"
  | .illegal9 _ => "ILLEGAL_9"

/-- A row of the machine-readable table (R81): a digit that must match, or `none` where the mask says any digit. -/
structure OpcodeRow where
  mnemonic : String
  d2 : Option Nat
  d1 : Option Nat
  d0 : Option Nat
  deriving DecidableEq, Repr

/-- The rows of opcode_table.json, match and mask, in its order: INP and OUT take precedence over ILLEGAL_9 (R81). -/
def opcodeRows : List OpcodeRow :=
  [ ⟨"HLT", some 0, none, none⟩,
    ⟨"ADD", some 1, none, none⟩,
    ⟨"SUB", some 2, none, none⟩,
    ⟨"STA", some 3, none, none⟩,
    ⟨"MUL", some 4, none, none⟩,
    ⟨"LDA", some 5, none, none⟩,
    ⟨"BRA", some 6, none, none⟩,
    ⟨"BRZ", some 7, none, none⟩,
    ⟨"BRP", some 8, none, none⟩,
    ⟨"INP", some 9, some 0, some 1⟩,
    ⟨"OUT", some 9, some 0, some 2⟩,
    ⟨"ILLEGAL_9", some 9, none, none⟩ ]

/-- One position of a mask: `D` asks for equality, `-` for nothing (R81). -/
def digitFits (pattern : Option Nat) (d : Nat) : Bool :=
  match pattern with
  | none => true
  | some p => p == d

/-- A word matches a row when every `D` digit equals the row's digit at that position (R81). -/
def OpcodeRow.covers (r : OpcodeRow) (w : Word) : Bool :=
  digitFits r.d2 (w.digit 2) && digitFits r.d1 (w.digit 1) && digitFits r.d0 (w.digit 0)

/-- The mnemonic the table gives a word: that of the first row that covers it (R81). -/
def tableMnemonic (w : Word) : Option String :=
  (opcodeRows.find? (fun r => r.covers w)).map (fun r => r.mnemonic)

/-- The instruction the decoder reads from the table's numbering of a word. The words of this machine are decimal
numbers, not bit patterns, so `w` is the word's value and `nbits`, the size the table would give it, says nothing
more (log entry 2). -/
def decodeTableWord (_nbits w : Nat) : Option Instr :=
  match decode w with
  | .instr i => some i
  | .invalidOpcode _ => none

end Sys2Proof
end

