-- ==== Sys2Proof/Machine/Ops.lean ====
section
/-! DEFINITION. The named operations over memory and registers, the taking of a fault, and the common parts of a
cycle (spec R9, R52, R90 to R94, R157). A fault has no return (R159), so there is no operation for one. -/

namespace Sys2Proof.Machine

/-- MemRead (R52) by the cell's number: the Word of the cell, or what an unlisted cell holds. -/
def Memory.read (m : Memory) (a : Nat) : Word :=
  match m with
  | [] => Memory.unlisted
  | (k, v) :: rest => if k = a then v else Memory.read rest a

/-- A listed cell in front of a memory, unless the Word is what an unlisted cell holds. -/
def Memory.cons (a : Nat) (v : Word) (rest : Memory) : Memory :=
  if v = Memory.unlisted then rest else (a, v) :: rest

/-- MemWrite (R52): the cell holds the Word, every other cell is as it was, and the list stays in its form. -/
def Memory.write (m : Memory) (a : Nat) (v : Word) : Memory :=
  match m with
  | [] => Memory.cons a v []
  | (k, w) :: rest =>
    if a < k then Memory.cons a v ((k, w) :: rest)
    else if a = k then Memory.cons a v rest
    else (k, w) :: Memory.write rest a v

/-- The canonical form from a least address on: addresses strictly rising and inside 0..99 (R50), no Word listed
that an unlisted cell holds (the model's form: log entry 1). -/
def Memory.wfFrom (m : Memory) (lo : Nat) : Bool :=
  match m with
  | [] => true
  | (k, v) :: rest =>
    decide (lo ≤ k) && decide (k < Config.nMem) && decide (v ≠ Memory.unlisted) && Memory.wfFrom rest (k + 1)

/-- The canonical form of memory: equal memories are equal lists (the model's form: log entry 1). -/
def Memory.wf (m : Memory) : Bool := Memory.wfFrom m 0

/-- Words written to consecutive cells from `base` on: the copy of the load (R58). -/
def Memory.writeWords (m : Memory) (base : Nat) (ws : List Word) : Memory :=
  match ws with
  | [] => m
  | w :: rest => Memory.writeWords (Memory.write m base w) (base + 1) rest

/-- `ACC <- v` (R9). -/
def State.setAcc (s : State) (v : Word) : State := { s with acc := v }

/-- `PC <- v` (R9). -/
def State.setPc (s : State) (v : PcVal) : State := { s with pc := v }

/-- `MemRead(a, 1)` (R9, R52). -/
def State.memRead (s : State) (a : Addr) : Word := Memory.read s.mem a.val

/-- `MemWrite(a, 1, v)` (R9, R52). -/
def State.memWrite (s : State) (a : Addr) (v : Word) : State := { s with mem := Memory.write s.mem a.val v }

/-- `Emit(e)` (R9): appends to OUTQ. An emit always completes (R131). -/
def State.emit (s : State) (e : OutEvent) : State := { s with outq := s.outq ++ [e] }

/-- `raise Fault(k, info)` (R157), the one way into a fault: FR and ST are written and nothing else; there is no
vector and no handler. That the cycle ends at once is the raiser's: nothing follows a raise. -/
def State.raiseFault (s : State) (r : FaultRecord) : State := { s with fr := some r, st := .faulted }

/-- `PC - 1` (R94): the address of the executing instruction, for PC was incremented at fetch. -/
def State.executingAddress (s : State) : Int := (s.pc.val : Int) - 1

/-- The cancel test of R90: the input exists and is asserted (R92). -/
def State.cancelTaken (s : State) : Bool := s.cfg.cancelPresent && s.cancel

/-- `ST <- Stopped` (R92, R162). -/
def State.stop (s : State) : State := { s with st := .stopped }

/-- `ST <- Halted` (R120). -/
def State.halt (s : State) : State := { s with st := .halted }

/-- The PC check of R93: the fetch address, or none when PC is outside 0..99. -/
def State.fetchAddr (s : State) : Option Addr :=
  if h : s.pc.val < 100 then some ⟨s.pc.val, h⟩ else none

/-- The fetch of R94: IW is latched and PC is incremented, before the instruction's own effect. -/
def State.beginCycle (s : State) (a : Addr) : State := { s with iw := some (s.memRead a), pc := a.succ }

/-- The end of a cycle: IW does not survive it (R30). A cycle in which an input request is outstanding has not ended. -/
def State.endCycle (s : State) : State := { s with iw := if s.inReq then s.iw else none }

/-- A number stored where the next step fetches, and what else that fetch needs (log entry 3): a run in progress, no
request outstanding, cancel not asserted, and PC inside memory. A number that is no Word is not stored (R58). -/
def State.placeFetchWord (s : State) (w : Nat) : State :=
  if hw : w < 1000 then
    let pc : PcVal := if s.pc.val < 100 then s.pc else 0
    { s with mem := Memory.write s.mem pc.val ⟨w, hw⟩, pc := pc, st := .running, fr := none, iw := none,
             inReq := false, cancel := false }
  else s

/-- The numeric code of ST on a status port (R33). -/
def Status.code (st : Status) : Nat :=
  match st with
  | .idle => 0
  | .running => 1
  | .halted => 2
  | .faulted => 3
  | .stopped => 4

/-- The numeric code of a fault kind (R33). -/
def FaultRecord.code (r : FaultRecord) : Nat :=
  match r with
  | .pcOutOfBounds _ => 1
  | .invalidInstruction _ _ => 2
  | .inputReadError _ => 3

end Sys2Proof.Machine
end

