-- ==== Sys2Proof/Machine/Operands.lean ====
section
/-! DEFINITION. The one operand form, direct (spec R73): a data operand, a store destination and a branch target. -/

namespace Sys2Proof.Machine

/-- The Word a direct operand names (R53, R73). -/
def operandWord (s : State) (a : Addr) : Word := s.memRead a

/-- A Word stored to the cell a direct operand names (R53, R73). -/
def storeOperand (s : State) (a : Addr) (v : Word) : State := s.memWrite a v

/-- A direct branch target: the operand itself, an absolute address (R124), as a value of PC. -/
def branchTarget (a : Addr) : PcVal := a.castSucc

end Sys2Proof.Machine
end

