-- ==== Sys2Proof/Machine/Arithmetic.lean ====
section
/-! DEFINITION. ADD, SUB, MUL (spec R101 to R103). -/

namespace Sys2Proof.Machine

/-- The shared shape (R100): ACC is the left operand and the destination, the memory operand is the right one. -/
def aluStep (op : AluOp) (a : Addr) (s : State) : State := s.setAcc (alu op s.acc (operandWord s a))

/-- ADD a (R101). -/
def execAdd (a : Addr) (s : State) : Host.Outcome State Fault Refusal := .next (aluStep .add a s)

/-- SUB a (R102). -/
def execSub (a : Addr) (s : State) : Host.Outcome State Fault Refusal := .next (aluStep .sub a s)

/-- MUL a (R103). -/
def execMul (a : Addr) (s : State) : Host.Outcome State Fault Refusal := .next (aluStep .mul a s)

end Sys2Proof.Machine
end

