-- ==== Sys2Proof/Machine/ConsoleIo.lean ====
section
/-! DEFINITION. The console multiplexer: INP, OUT and the illegal words of opcode 9 (spec R130 to R136). -/

namespace Sys2Proof.Machine

/-- What an INP does with the host's answer (R133): a fault, the diagnostic and 0, or the encoded value. -/
def acceptAnswer (r : InAnswer) (s : State) : State :=
  match r with
  | .fail => s.raiseFault (.inputReadError s.executingAddress)
  | .ok n =>
    if n < Config.inpMin ∨ Config.inpMax < n then (s.emit .invalidInputDiag).setAcc (encodeSigned 0)
    else s.setAcc (encodeSigned n)

/-- The request is answered (R132): its answer is taken, `rest` are the answers to come. -/
def takeAnswer (rest : List InAnswer) (s : State) : State := { s with script := rest, inReq := false }

/-- The outstanding request (R132): with an answer there it is taken and the INP completes; with none there the core
waits, and everything is kept (R168, log entry 5). -/
def serveInput (s : State) : State :=
  match s.script with
  | [] => s
  | r :: rest => acceptAnswer r (takeAnswer rest s)

/-- `InRequest()` (R9, R132): the request is made. -/
def requestInput (s : State) : State := { s with inReq := true }

/-- INP (R133): Prompt, one request, and the answer when it comes. -/
def execInp (s : State) : Host.Outcome State Fault Refusal := .next (serveInput (requestInput (s.emit .prompt)))

/-- OUT (R134). -/
def execOut (s : State) : Host.Outcome State Fault Refusal := .next (s.emit (.value (decodeSigned s.acc)))

/-- Opcode 9 with an operand other than 1 or 2 (R75, R130): the fault, or nothing under Nop. -/
def execIllegal9 (_a : Addr) (s : State) : Host.Outcome State Fault Refusal :=
  match s.cfg.ioOtherOperand with
  | .fault => .next (s.raiseFault (.invalidInstruction 9 s.executingAddress))
  | .nop => .next s

end Sys2Proof.Machine
end

