-- ==== Sys2Proof/Machine/Flags.lean ====
section
/-! DEFINITION. The branch conditions. The core has no flag register (spec R25): BRZ and BRP test ACC itself. -/

namespace Sys2Proof.Machine

/-- The test of BRZ (R122). -/
def accIsZero (s : State) : Bool := decide (decodeSigned s.acc = 0)

/-- The test of BRP (R123): positive or zero. -/
def accIsNonNegative (s : State) : Bool := decide (0 ≤ decodeSigned s.acc)

end Sys2Proof.Machine
end

