-- ==== Sys2Proof/Machine/Control.lean ====
section
/-! DEFINITION. HLT, BRA, BRZ, BRP (spec R120 to R124). PC was incremented at fetch, so a branch that is not taken
leaves it alone. -/

namespace Sys2Proof.Machine

/-- The branch controller (R124): the target replaces the incremented PC when the condition holds. -/
def branchIf (taken : Bool) (a : Addr) (s : State) : State := if taken then s.setPc (branchTarget a) else s

/-- HLT (R120): the operand digits are ignored. -/
def execHlt (_a : Addr) (s : State) : Host.Outcome State Fault Refusal := .next s.halt

/-- BRA a (R121). -/
def execBra (a : Addr) (s : State) : Host.Outcome State Fault Refusal := .next (branchIf true a s)

/-- BRZ a (R122). -/
def execBrz (a : Addr) (s : State) : Host.Outcome State Fault Refusal := .next (branchIf (accIsZero s) a s)

/-- BRP a (R123). -/
def execBrp (a : Addr) (s : State) : Host.Outcome State Fault Refusal := .next (branchIf (accIsNonNegative s) a s)

end Sys2Proof.Machine
end

