-- ==== Sys2Proof/Machine/DataMovement.lean ====
section
/-! DEFINITION. LDA, STA (spec R110, R111): raw copies, no decode or encode. -/

namespace Sys2Proof.Machine

/-- LDA a (R110). -/
def execLda (a : Addr) (s : State) : Host.Outcome State Fault Refusal := .next (s.setAcc (operandWord s a))

/-- STA a (R111). -/
def execSta (a : Addr) (s : State) : Host.Outcome State Fault Refusal := .next (storeOperand s a s.acc)

end Sys2Proof.Machine
end

