-- ==== Sys2Proof/Machine/Cycle.lean ====
section
/-! DEFINITION. The cycle (spec R90), around exec: the cancel test, the PC check, fetch, decode and the cycle's end. -/

namespace Sys2Proof.Machine

/-- The end of a cycle, on an outcome of exec. -/
def finishCycle (o : Host.Outcome State Fault Refusal) : Host.Outcome State Fault Refusal :=
  match o with
  | .next s => .next s.endCycle
  | .fault r => .fault r
  | .refused r => .refused r

/-- The decode and dispatch of a fetched word (R94, R95), with the arm of R76 for a value that is no Word. -/
def runFetched (w : Nat) (s : State) : Host.Outcome State Fault Refusal :=
  match Sys2Proof.decode w with
  | .instr i => finishCycle (exec i s)
  | .invalidOpcode op => .next (s.raiseFault (.invalidInstruction op s.executingAddress)).endCycle

/-- The cycle of R90 from its first line, for a running core that is not inside an INP. -/
def cycle (s : State) : Host.Outcome State Fault Refusal :=
  if s.cancelTaken then .next s.stop
  else
    match s.fetchAddr with
    | none => .next (s.raiseFault (.pcOutOfBounds s.pc))
    | some a => runFetched (s.memRead a).val (s.beginCycle a)

/-- What a running core does next: inside an INP it goes on with its request, without sampling cancel (R92);
otherwise it takes a cycle (R90). -/
def runningStep (s : State) : Host.Outcome State Fault Refusal :=
  if s.inReq then .next (serveInput s).endCycle else cycle s

end Sys2Proof.Machine
end

