-- ==== Sys2Proof/Machine/Step.lean ====
section
/-! DEFINITION. One step of the machine: one cycle (spec R90), or the rest of an INP's cycle whose answer was
outstanding (R30, R97). It only calls what the other files define. -/

namespace Sys2Proof.Machine

/-- One step. A core that is not Running takes no cycle and nothing changes (R91, R96; log entry 12). -/
def step (s : State) : Host.Outcome State Fault Refusal :=
  match s.st with
  | .running => runningStep s
  | .idle => .next s
  | .halted => .next s
  | .faulted => .next s
  | .stopped => .next s

/-- `s` with the table's word `w` where the next step fetches, and a run in progress (log entry 3). -/
def State.withFetchWord (s : State) (_nbits w : Nat) : State := s.placeFetchWord w

end Sys2Proof.Machine
end

