-- ==== Sys2Proof/Machine/HostText.lean ====
section
/-! DEFINITION. The host's text (spec R132, R137, R171, R80): functions of the core's events and final status, and of
the host's parameters. No rule of the core depends on them. -/

namespace Sys2Proof.Machine

/-- The newline a host may or may not put after a line (R137, D10). -/
def optionalNewline (present : Bool) : String := if present then "\n" else ""

/-- The text of one output event (R137). -/
def renderEvent (h : HostParams) (e : OutEvent) : String :=
  match e with
  | .prompt => "Enter a value (-999 to 999): " ++ optionalNewline h.newlinePrompt
  | .invalidInputDiag => "Invalid input. Using 0." ++ optionalNewline h.newlineDiag
  | .value v => "Output: " ++ toString v ++ "\n"

/-- The text of a fault (R171). -/
def renderFault (h : HostParams) (r : FaultRecord) : String :=
  match r with
  | .pcOutOfBounds _ => "Error: Program counter out of bounds"
  | .invalidInstruction op ad => "Error: Invalid instruction " ++ toString op ++ " at address " ++ toString ad
  | .inputReadError _ => h.inputErrorText

/-- The process exit status of a run that has ended (R171), none while it has not. -/
def exitStatus (h : HostParams) (st : Status) : Option Int :=
  match st with
  | .halted => some h.exitSuccess
  | .faulted => some 1
  | .stopped => some h.exitStopped
  | .running => none
  | .idle => none

/-- The host's answer from what it read (R132): the parse of a line, and Fail when no line can be read. -/
def answerOfLine (h : HostParams) (line : Option String) : InAnswer :=
  match line with
  | none => .fail
  | some l => h.parse l

/-- A two-digit operand (R80). -/
def twoDigits (a : Addr) : String := toString (a.val / 10) ++ toString (a.val % 10)

/-- The assembler text of an instruction in the syntax R80 fixes: the mnemonic and its two-digit operand, HLT, INP and
OUT without one. An illegal word has no mnemonic and is written as the data it is. HLT's ignored digits are not
written. -/
def asmText (i : Instr) : String :=
  match i with
  | .hlt _ => "HLT"
  | .inp => "INP"
  | .out => "OUT"
  | .illegal9 a => "DAT 9" ++ twoDigits a
  | .add a => "ADD " ++ twoDigits a
  | .sub a => "SUB " ++ twoDigits a
  | .sta a => "STA " ++ twoDigits a
  | .mul a => "MUL " ++ twoDigits a
  | .lda a => "LDA " ++ twoDigits a
  | .bra a => "BRA " ++ twoDigits a
  | .brz a => "BRZ " ++ twoDigits a
  | .brp a => "BRP " ++ twoDigits a

end Sys2Proof.Machine
end

