-- ==== Sys2Proof/Machine/HostPort.lean ====
section
/-! DEFINITION. The transactions of the block's boundary (spec R7): load, step, run, the answer to an input request,
the cancel input, the status port and reset. They are the host's, and happen between steps. -/

namespace Sys2Proof.Machine

/-- The answers to a load (R58). -/
inductive LoadAnswer where
  | ok
  | configurationError
  | refused
  deriving DecidableEq, Repr

/-- The answers to a step or a run (R96): the four outcomes of a cycle; `waiting` when the cycle is an INP's and its
answer is outstanding (R97); `idle` when no program was loaded. -/
inductive StepAnswer where
  | goesOn
  | waiting
  | halted
  | faulted (fr : Option FaultRecord)
  | stopped
  | idle
  deriving DecidableEq, Repr

/-- A loaded value as a Word, or none where it is outside 0..999 (R58). -/
def toWord (x : Int) : Option Word :=
  if h : 0 ≤ x ∧ x ≤ 999 then some ⟨x.toNat, by omega⟩ else none

/-- Every loaded value as a Word, or none where some value is outside 0..999 (R58). -/
def admitWords (xs : List Int) : Option (List Word) :=
  match xs with
  | [] => some []
  | x :: rest =>
    match toWord x, admitWords rest with
    | some w, some ws => some (w :: ws)
    | _, _ => none

/-- The load transaction (R58). -/
def load (xs : List Int) (s : State) : State × LoadAnswer :=
  match s.st with
  | .idle =>
    if Config.nLoadMax < xs.length then (s, .configurationError)
    else
      match admitWords xs with
      | none => (s, .configurationError)
      | some ws => ({ s with mem := Memory.writeWords s.mem 0 ws, st := .running }, .ok)
  | .running => (s, .refused)
  | .halted => (s, .refused)
  | .faulted => (s, .refused)
  | .stopped => (s, .refused)

/-- What a step answers of the state it leaves (R96). -/
def stepAnswer (s : State) : StepAnswer :=
  match s.st with
  | .running => if s.inReq then .waiting else .goesOn
  | .halted => .halted
  | .faulted => .faulted s.fr
  | .stopped => .stopped
  | .idle => .idle

/-- The step transaction (R96). No step of this machine faults or is refused, so the other two outcomes only make the
function total. -/
def hostStep (s : State) : State × StepAnswer :=
  match step s with
  | .next t => (t, stepAnswer t)
  | .fault _ => (s, stepAnswer s)
  | .refused _ => (s, stepAnswer s)

/-- The run transaction (R96): steps until the answer is not Continue, at most `fuel` of them. -/
def hostRun (fuel : Nat) (s : State) : State × StepAnswer :=
  match fuel with
  | 0 => (s, stepAnswer s)
  | k + 1 =>
    match hostStep s with
    | (t, .goesOn) => hostRun k t
    | (t, a) => (t, a)

/-- The host's answer to an input request (R132). An answer that was not requested, or a second one to the same
request, is not taken (R135). -/
def giveAnswer (r : InAnswer) (s : State) : State :=
  if s.inReq && s.script.isEmpty then { s with script := [r] } else s

/-- The host drives its cancel input (R7, R135). -/
def setCancel (b : Bool) (s : State) : State := { s with cancel := b }

/-- The reset transaction, in any status (R183): everything the core holds goes to its reset value, and with the
outstanding request goes the answer to it. The cancel input is the host's and the parameters are the machine's: both
stay (log entry 9). -/
def applyReset (s : State) : State := { State.resetWith s.cfg with cancel := s.cancel }

/-- The status port (R7, R33): the code of ST, and the code of the fault kind with the record. -/
def statusPort (s : State) : Nat × Option (Nat × FaultRecord) :=
  (s.st.code, s.fr.map (fun r => (r.code, r)))

/-- Everything the host can do to the block (R4, R7). -/
inductive HostCommand where
  | load (xs : List Int)
  | step
  | run (fuel : Nat)
  | answer (r : InAnswer)
  | cancel (b : Bool)
  | reset
  deriving DecidableEq, Repr

/-- The state a host command leaves. -/
def applyCommand (c : HostCommand) (s : State) : State :=
  match c with
  | .load xs => (load xs s).1
  | .step => (hostStep s).1
  | .run fuel => (hostRun fuel s).1
  | .answer r => giveAnswer r s
  | .cancel b => setCancel b s
  | .reset => applyReset s

end Sys2Proof.Machine
end

