-- ==== Sys2Proof/Safety.lean ====
section
/-! DEFINITION. The terms claims use: well-formed events and fault records, the invariant of the machine, the end of a
run (spec R169), and the states the host can bring about. -/

namespace Sys2Proof.Machine

/-- An output event the core can emit: a value lies in the signed range (R131). -/
def OutEvent.wf (e : OutEvent) : Bool :=
  match e with
  | .prompt => true
  | .invalidInputDiag => true
  | .value v => decide (-500 ≤ v) && decide (v ≤ 499)

/-- The word in the cell below PC: that of the instruction whose cycle was the last to fetch (R94), where no branch was
taken and nothing was stored there. -/
def State.wordBelowPc (s : State) : Nat := (Memory.read s.mem (s.pc.val - 1)).val

/-- FR holds a record exactly when ST is Faulted (R28), and the record fits what the fault left (R151 to R153, R158):
PC is 100 at PcOutOfBounds; otherwise the recorded address is the cell below PC, and that cell holds an illegal word
with the parameter at Fault, or the
INP that failed, whose Prompt is the last event. -/
def State.faultRecordFits (s : State) : Bool :=
  match s.fr with
  | none => decide (s.st ≠ .faulted)
  | some (.pcOutOfBounds p) => decide (s.st = .faulted) && decide (p = s.pc) && decide (s.pc.val = 100)
  | some (.invalidInstruction op ad) =>
    decide (s.st = .faulted) && decide (op = 9) && decide (0 < s.pc.val) && decide (ad = (s.pc.val : Int) - 1)
      && decide (s.cfg.ioOtherOperand = .fault) && decide (s.wordBelowPc / 100 = 9)
      && decide (s.wordBelowPc ≠ 901) && decide (s.wordBelowPc ≠ 902)
  | some (.inputReadError ad) =>
    decide (s.st = .faulted) && decide (0 < s.pc.val) && decide (ad = (s.pc.val : Int) - 1)
      && decide (s.wordBelowPc = 901) && decide (s.outq.getLast? = some .prompt)

/-- What the core holds inside a cycle (R30, R31): nothing between cycles; while an INP waits, ST is Running, IW is the
word 901 and still in the cell below PC, and the last event is the Prompt (the form is the model's: log entries 5 and
6). -/
def State.latchFits (s : State) : Bool :=
  if s.inReq then
    decide (s.st = .running) && decide (s.iw = some 901) && decide (0 < s.pc.val)
      && decide (s.wordBelowPc = 901) && decide (s.outq.getLast? = some .prompt)
  else decide (s.iw = none)

/-- An idle core is as reset leaves it (R31, R58, R91); a halted one has the HLT in the cell below PC (R98, R120). -/
def State.statusFits (s : State) : Bool :=
  match s.st with
  | .idle => decide (s.mem = []) && decide (s.acc = 0) && decide (s.pc = 0) && decide (s.outq = [])
  | .running => true
  | .halted => decide (0 < s.pc.val) && decide (s.wordBelowPc < 100)
  | .faulted => true
  | .stopped => true

/-- The invariant: memory in canonical form (the model's form of the 100 cells of R50: log entry 1), every output value
signed (R131), FR and ST agree (R28), the latch and the wait agree (R30; that they stand in State between the steps of
a waiting INP is the model's: log entries 5 and 6), an idle core is as reset leaves it and a halted one is just past a
HLT (R120). -/
abbrev State.Inv (s : State) : Prop :=
  Memory.wf s.mem = true ∧ s.outq.all OutEvent.wf = true ∧ s.faultRecordFits = true ∧ s.latchFits = true
    ∧ s.statusFits = true

/-- A run is in progress and the core is between cycles, with no cancel to take: the next step takes a whole cycle
past the cancel test (R90 to R92). -/
abbrev State.Ready (s : State) : Prop := s.st = .running ∧ s.inReq = false ∧ s.cancelTaken = false

/-- The next step takes a whole cycle that fetches, at address `p`, a word of value `w` (R94). -/
abbrev State.FetchesAt (s : State) (p : Addr) (w : Nat) : Prop :=
  s.Ready ∧ s.pc = p.castSucc ∧ (s.memRead p).val = w

/-- The status is one with no exit but a reset (R159). -/
def Status.terminal (st : Status) : Bool :=
  match st with
  | .halted => true
  | .faulted => true
  | .stopped => true
  | .running => false
  | .idle => false

/-- A run that ended well (R169): exactly when ST is Halted. -/
abbrev State.successful (s : State) : Prop := s.st = .halted

/-- Every cell reads the same. -/
abbrev SameMemory (s t : State) : Prop := ∀ b : Addr, t.memRead b = s.memRead b

/-- ST and FR are the same. -/
abbrev SameStatus (s t : State) : Prop := t.st = s.st ∧ t.fr = s.fr

/-- The console is the same: the output stream, the outstanding request and the answers to come. -/
abbrev SameConsole (s t : State) : Prop := t.outq = s.outq ∧ t.inReq = s.inReq ∧ t.script = s.script

/-- What no instruction touches is the same: the latched word, the cancel input and the parameters. -/
abbrev SameRest (s t : State) : Prop := t.iw = s.iw ∧ t.cancel = s.cancel ∧ t.cfg = s.cfg

/-- The same after a cycle that ended: nothing is latched, and the cancel input and the parameters are as before. -/
abbrev CycleEnded (s t : State) : Prop := t.iw = none ∧ t.cancel = s.cancel ∧ t.cfg = s.cfg

/-- The states a host brings about from a reset, with any parameters and any commands (R7, R135). -/
inductive Reachable : State → Prop where
  | reset (c : Config) : Reachable (State.resetWith c)
  | command (s : State) (c : HostCommand) : Reachable s → Reachable (applyCommand c s)

end Sys2Proof.Machine
end

