-- ==== Sys2Proof/Certificates/Slice0/Obligations.lean ====
section
/-! DEFINITION. The statements for the provers. `exec` is the execute part of a cycle: PC was incremented at fetch (spec
R94), so the executing instruction's address is PC - 1. -/

open Sys2Proof Sys2Proof.Machine

/-- R21. -/
def Obligations.SignedDecodeSplitsAtFiveHundred : Prop :=
  ∀ w : Word,
    (500 ≤ w.val → decodeSigned w = (w.val : Int) - 1000) ∧ (w.val < 500 → decodeSigned w = (w.val : Int))
      ∧ -500 ≤ decodeSigned w ∧ decodeSigned w ≤ 499

/-- R22: total over the integers, and Euclidean. -/
def Obligations.SignedEncodeIsEuclideanResidue : Prop :=
  ∀ x : Int, ∃ q : Int, x = 1000 * q + ((encodeSigned x).val : Int) ∧ (encodeSigned x).val ≤ 999

/-- R23 (a) to (e). -/
def Obligations.SignedCodecLaws : Prop :=
  (∀ x : Int, -500 ≤ x → x ≤ 499 → decodeSigned (encodeSigned x) = x)
    ∧ (∀ w : Word, encodeSigned (decodeSigned w) = w)
    ∧ (∀ w : Word, decodeSigned w % 1000 = (w.val : Int))
    ∧ (∀ x y : Int, (-500 ≤ y ∧ y ≤ 499 ∧ y % 1000 = x % 1000) ↔ y = decodeSigned (encodeSigned x))
    ∧ (∀ w : Word, (decodeSigned w = 0 ↔ w.val = 0) ∧ (0 ≤ decodeSigned w ↔ w.val ≤ 499))

/-- R100: decode both, compute exactly, encode once; the ranges of the exact results. -/
def Obligations.AluComputesExactlyThenEncodes : Prop :=
  ∀ x y : Word,
    (alu .add x y = encodeSigned (decodeSigned x + decodeSigned y)
        ∧ -1000 ≤ decodeSigned x + decodeSigned y ∧ decodeSigned x + decodeSigned y ≤ 998)
      ∧ (alu .sub x y = encodeSigned (decodeSigned x - decodeSigned y)
        ∧ -999 ≤ decodeSigned x - decodeSigned y ∧ decodeSigned x - decodeSigned y ≤ 999)
      ∧ (alu .mul x y = encodeSigned (decodeSigned x * decodeSigned y)
        ∧ -249500 ≤ decodeSigned x * decodeSigned y ∧ decodeSigned x * decodeSigned y ≤ 250000)

/-- R104: on raw Words the ALU is arithmetic modulo 1000. -/
def Obligations.AluIsArithmeticModuloThousand : Prop :=
  ∀ x y : Word,
    ((alu .add x y).val : Int) = ((x.val : Int) + y.val) % 1000
      ∧ ((alu .sub x y).val : Int) = ((x.val : Int) - y.val) % 1000
      ∧ ((alu .mul x y).val : Int) = ((x.val : Int) * y.val) % 1000

/-- R105: overflow leaves the one signed value congruent to the exact result, and no other trace. -/
def Obligations.OverflowWrapsWithoutTrace : Prop :=
  ∀ (op : AluOp) (a : Addr) (s : State),
    ∃ t, exec (match op with | .add => .add a | .sub => .sub a | .mul => .mul a) s = .next t
      ∧ t = { s with acc := t.acc }
      ∧ ∀ y : Int,
          (-500 ≤ y ∧ y ≤ 499 ∧ y % 1000 = aluExact op (decodeSigned s.acc) (decodeSigned (s.memRead a)) % 1000)
            ↔ y = decodeSigned t.acc

/-- R74: the opcode map, row by row, over every Word. -/
def Obligations.DecoderFollowsOpcodeMap : Prop :=
  ∀ (op : Nat) (a : Addr) (w : Word), w.val = 100 * op + a.val →
    (op = 0 → decode w.val = .instr (.hlt a)) ∧ (op = 1 → decode w.val = .instr (.add a))
      ∧ (op = 2 → decode w.val = .instr (.sub a)) ∧ (op = 3 → decode w.val = .instr (.sta a))
      ∧ (op = 4 → decode w.val = .instr (.mul a)) ∧ (op = 5 → decode w.val = .instr (.lda a))
      ∧ (op = 6 → decode w.val = .instr (.bra a)) ∧ (op = 7 → decode w.val = .instr (.brz a))
      ∧ (op = 8 → decode w.val = .instr (.brp a))
      ∧ (op = 9 → a.val = 1 → decode w.val = .instr .inp) ∧ (op = 9 → a.val = 2 → decode w.val = .instr .out)
      ∧ (op = 9 → a.val ≠ 1 → a.val ≠ 2 → decode w.val = .instr (.illegal9 a))
      ∧ op ≤ 9

/-- Decode and encode agree on every well-formed instruction. That HLT keeps the digits the machine ignores, and an
illegal opcode-9 word its operand, is the model's: log entry 16. -/
def Obligations.DecodeOfEncodeGivesInstruction : Prop :=
  ∀ i : Instr, i.wellFormed = true → decode (encode i).val = .instr i

/-- Every Word is the encoding of the one well-formed instruction it decodes to; each of 000..099 is a HLT of its own,
and each illegal opcode-9 word an instruction of its own, because the model's syntax keeps their digits (log entry
16). -/
def Obligations.EncodeOfDecodeGivesWord : Prop :=
  ∀ w : Word, ∃ i : Instr, decode w.val = .instr i ∧ i.wellFormed = true ∧ encode i = w
    ∧ ∀ j : Instr, j.wellFormed = true → encode j = w → j = i

/-- R76: a value of 1000 or more has its own opcode and raises InvalidInstruction with it; the load refuses such a
value, and no Word is one. -/
def Obligations.ValuesAboveWordsAreInvalid : Prop :=
  (∀ (w : Nat) (s : State), 1000 ≤ w →
      decode w = .invalidOpcode (w / 100)
        ∧ ∃ t, runFetched w s = .next t ∧ t.st = .faulted
          ∧ t.fr = some (.invalidInstruction (w / 100) ((s.pc.val : Int) - 1)))
    ∧ (∀ (xs : List Int) (x : Int) (s : State), x ∈ xs → 1000 ≤ x → (load xs s).2 ≠ .ok ∧ (load xs s).1 = s)
    ∧ (∀ w : Word, ∃ i, decode w.val = .instr i)

/-- The first row of the opcode table that covers a Word is the row of the instruction the decoder reads from it. -/
def Obligations.TableRowsAgreeWithDecoder : Prop :=
  ∀ w : Word, ∃ i, decode w.val = .instr i ∧ tableMnemonic w = some i.mnemonic

/-- Words written out from R74, one per opcode and the edges of opcode 9, the illegal ones of R75 among them; and 1023,
which is no Word, as R76 has it. The operands HLT and the illegal words carry are the model's: log entry 16. -/
def Obligations.SampleWordsDecode : Prop :=
  decode 0 = .instr (.hlt 0) ∧ decode 42 = .instr (.hlt 42) ∧ decode 111 = .instr (.add 11)
    ∧ decode 208 = .instr (.sub 8) ∧ decode 311 = .instr (.sta 11) ∧ decode 406 = .instr (.mul 6)
    ∧ decode 511 = .instr (.lda 11) ∧ decode 699 = .instr (.bra 99) ∧ decode 708 = .instr (.brz 8)
    ∧ decode 806 = .instr (.brp 6) ∧ decode 900 = .instr (.illegal9 0) ∧ decode 901 = .instr .inp
    ∧ decode 902 = .instr .out ∧ decode 903 = .instr (.illegal9 3) ∧ decode 999 = .instr (.illegal9 99)
    ∧ decode 1023 = .invalidOpcode 10

/-- R101. -/
def Obligations.AddWritesWrappedSum : Prop :=
  ∀ (a : Addr) (s : State),
    decode (100 + a.val) = .instr (.add a)
      ∧ (∃ t, exec (.add a) s = .next t
        ∧ t.acc = encodeSigned (decodeSigned s.acc + decodeSigned (s.memRead a))
        ∧ t.pc = s.pc ∧ SameMemory s t ∧ SameStatus s t ∧ SameConsole s t ∧ SameRest s t)
      ∧ ∀ p : Addr, s.FetchesAt p (100 + a.val) →
        ∃ t, step s = .next t ∧ t.acc = encodeSigned (decodeSigned s.acc + decodeSigned (s.memRead a))
          ∧ t.pc = p.succ ∧ SameMemory s t ∧ SameStatus s t ∧ SameConsole s t ∧ CycleEnded s t

/-- R102. -/
def Obligations.SubWritesWrappedDifference : Prop :=
  ∀ (a : Addr) (s : State),
    decode (200 + a.val) = .instr (.sub a)
      ∧ (∃ t, exec (.sub a) s = .next t
        ∧ t.acc = encodeSigned (decodeSigned s.acc - decodeSigned (s.memRead a))
        ∧ t.pc = s.pc ∧ SameMemory s t ∧ SameStatus s t ∧ SameConsole s t ∧ SameRest s t)
      ∧ ∀ p : Addr, s.FetchesAt p (200 + a.val) →
        ∃ t, step s = .next t ∧ t.acc = encodeSigned (decodeSigned s.acc - decodeSigned (s.memRead a))
          ∧ t.pc = p.succ ∧ SameMemory s t ∧ SameStatus s t ∧ SameConsole s t ∧ CycleEnded s t

/-- R103. -/
def Obligations.MulWritesWrappedProduct : Prop :=
  ∀ (a : Addr) (s : State),
    decode (400 + a.val) = .instr (.mul a)
      ∧ (∃ t, exec (.mul a) s = .next t
        ∧ t.acc = encodeSigned (decodeSigned s.acc * decodeSigned (s.memRead a))
        ∧ t.pc = s.pc ∧ SameMemory s t ∧ SameStatus s t ∧ SameConsole s t ∧ SameRest s t)
      ∧ ∀ p : Addr, s.FetchesAt p (400 + a.val) →
        ∃ t, step s = .next t ∧ t.acc = encodeSigned (decodeSigned s.acc * decodeSigned (s.memRead a))
          ∧ t.pc = p.succ ∧ SameMemory s t ∧ SameStatus s t ∧ SameConsole s t ∧ CycleEnded s t

/-- R110: a raw copy. -/
def Obligations.LdaCopiesCellToAccumulator : Prop :=
  ∀ (a : Addr) (s : State),
    decode (500 + a.val) = .instr (.lda a)
      ∧ (∃ t, exec (.lda a) s = .next t ∧ t.acc = s.memRead a
        ∧ t.pc = s.pc ∧ SameMemory s t ∧ SameStatus s t ∧ SameConsole s t ∧ SameRest s t)
      ∧ ∀ p : Addr, s.FetchesAt p (500 + a.val) →
        ∃ t, step s = .next t ∧ t.acc = s.memRead a ∧ t.pc = p.succ ∧ SameMemory s t ∧ SameStatus s t ∧ SameConsole s t
          ∧ CycleEnded s t

/-- R111: a raw copy to the cell the operand names and to no other, and no other instruction writes memory. The premise
is the canonical form of memory, part of the invariant of `StepKeepsInvariant`. -/
def Obligations.StaCopiesAccumulatorToCell : Prop :=
  ∀ (a : Addr) (s : State), Memory.wf s.mem = true →
    decode (300 + a.val) = .instr (.sta a)
      ∧ (∃ t, exec (.sta a) s = .next t ∧ t.memRead a = s.acc ∧ (∀ b : Addr, b ≠ a → t.memRead b = s.memRead b)
        ∧ t.acc = s.acc ∧ t.pc = s.pc ∧ SameStatus s t ∧ SameConsole s t ∧ SameRest s t)
      ∧ (∀ p : Addr, s.FetchesAt p (300 + a.val) →
        ∃ t, step s = .next t ∧ t.memRead a = s.acc ∧ (∀ b : Addr, b ≠ a → t.memRead b = s.memRead b)
          ∧ t.acc = s.acc ∧ t.pc = p.succ ∧ SameStatus s t ∧ SameConsole s t ∧ CycleEnded s t)
      ∧ ∀ (i : Instr) (t : State), (∀ b, i ≠ .sta b) → exec i s = .next t → SameMemory s t

/-- R120: every word 000..099 is HLT, whatever its operand digits. -/
def Obligations.HltHaltsSuccessfully : Prop :=
  ∀ (a : Addr) (s : State),
    decode a.val = .instr (.hlt a)
      ∧ (∃ t, exec (.hlt a) s = .next t ∧ t.st = .halted ∧ t.successful ∧ t.fr = s.fr
        ∧ t.pc = s.pc ∧ t.acc = s.acc ∧ SameMemory s t ∧ SameConsole s t ∧ SameRest s t)
      ∧ ∀ p : Addr, s.FetchesAt p a.val →
        ∃ t, step s = .next t ∧ t.st = .halted ∧ t.fr = s.fr ∧ t.pc = p.succ ∧ t.acc = s.acc ∧ SameMemory s t
          ∧ SameConsole s t ∧ CycleEnded s t ∧ ∀ k, Sys2Proof.core.run k t = .next t

/-- R121. -/
def Obligations.BraReplacesPc : Prop :=
  ∀ (a : Addr) (s : State),
    decode (600 + a.val) = .instr (.bra a)
      ∧ (∃ t, exec (.bra a) s = .next t ∧ t.pc.val = a.val
        ∧ t.acc = s.acc ∧ SameMemory s t ∧ SameStatus s t ∧ SameConsole s t ∧ SameRest s t)
      ∧ ∀ p : Addr, s.FetchesAt p (600 + a.val) →
        ∃ t, step s = .next t ∧ t.pc.val = a.val ∧ t.acc = s.acc ∧ SameMemory s t ∧ SameStatus s t ∧ SameConsole s t
          ∧ CycleEnded s t

/-- R122: the branch is taken exactly when ACC is zero, decoded or raw. -/
def Obligations.BrzBranchesOnZero : Prop :=
  ∀ (a : Addr) (s : State),
    decode (700 + a.val) = .instr (.brz a)
      ∧ (decodeSigned s.acc = 0 ↔ s.acc.val = 0)
      ∧ (∃ t, exec (.brz a) s = .next t
        ∧ (decodeSigned s.acc = 0 → t.pc.val = a.val) ∧ (decodeSigned s.acc ≠ 0 → t.pc = s.pc)
        ∧ t.acc = s.acc ∧ SameMemory s t ∧ SameStatus s t ∧ SameConsole s t ∧ SameRest s t)
      ∧ ∀ p : Addr, s.FetchesAt p (700 + a.val) →
        ∃ t, step s = .next t
          ∧ (decodeSigned s.acc = 0 → t.pc.val = a.val) ∧ (decodeSigned s.acc ≠ 0 → t.pc = p.succ)
          ∧ t.acc = s.acc ∧ SameMemory s t ∧ SameStatus s t ∧ SameConsole s t ∧ CycleEnded s t

/-- R123: the branch is taken exactly when ACC is positive or zero, which is raw 0..499. -/
def Obligations.BrpBranchesOnNonNegative : Prop :=
  ∀ (a : Addr) (s : State),
    decode (800 + a.val) = .instr (.brp a)
      ∧ (0 ≤ decodeSigned s.acc ↔ s.acc.val ≤ 499)
      ∧ (∃ t, exec (.brp a) s = .next t
        ∧ (0 ≤ decodeSigned s.acc → t.pc.val = a.val) ∧ (decodeSigned s.acc < 0 → t.pc = s.pc)
        ∧ t.acc = s.acc ∧ SameMemory s t ∧ SameStatus s t ∧ SameConsole s t ∧ SameRest s t)
      ∧ ∀ p : Addr, s.FetchesAt p (800 + a.val) →
        ∃ t, step s = .next t
          ∧ (0 ≤ decodeSigned s.acc → t.pc.val = a.val) ∧ (decodeSigned s.acc < 0 → t.pc = p.succ)
          ∧ t.acc = s.acc ∧ SameMemory s t ∧ SameStatus s t ∧ SameConsole s t ∧ CycleEnded s t

/-- R133, R153, R154: INP with the host's answer `r`: the fault, the diagnostic and 0, or the encoded value. The answer
stands at the head of the script, the model's form of the input (log entry 4); an answer that comes later is
`InpAnswerDelayIsInvisible`. -/
def Obligations.InpActsOnTheAnswer : Prop :=
  ∀ (r : InAnswer) (rest : List InAnswer) (s : State), s.script = r :: rest →
    decode 901 = .instr .inp
      ∧ (∃ t, exec .inp s = .next t
        ∧ (r = .fail → t.outq = s.outq ++ [.prompt] ∧ t.acc = s.acc ∧ t.st = .faulted
            ∧ t.fr = some (.inputReadError ((s.pc.val : Int) - 1)))
        ∧ (∀ n : Int, r = .ok n → (n < -999 ∨ 999 < n) →
            t.outq = s.outq ++ [.prompt, .invalidInputDiag] ∧ t.acc.val = 0 ∧ SameStatus s t)
        ∧ (∀ n : Int, r = .ok n → -999 ≤ n → n ≤ 999 →
            t.outq = s.outq ++ [.prompt] ∧ t.acc = encodeSigned n ∧ SameStatus s t)
        ∧ t.pc = s.pc ∧ SameMemory s t ∧ SameRest s t)
      ∧ ∀ p : Addr, s.FetchesAt p 901 →
        ∃ t, step s = .next t
          ∧ (r = .fail → t.outq = s.outq ++ [.prompt] ∧ t.acc = s.acc ∧ t.st = .faulted
              ∧ t.fr = some (.inputReadError p.val))
          ∧ (∀ n : Int, r = .ok n → (n < -999 ∨ 999 < n) →
              t.outq = s.outq ++ [.prompt, .invalidInputDiag] ∧ t.acc.val = 0 ∧ SameStatus s t)
          ∧ (∀ n : Int, r = .ok n → -999 ≤ n → n ≤ 999 →
              t.outq = s.outq ++ [.prompt] ∧ t.acc = encodeSigned n ∧ SameStatus s t)
          ∧ t.pc = p.succ ∧ SameMemory s t ∧ CycleEnded s t

/-- INP with no answer there yet: the Prompt is out, the request is outstanding, and nothing else changes; every later
step keeps everything until an answer comes (the model's stuttering wait: log entry 5). -/
def Obligations.InpWaitsForTheHost : Prop :=
  ∀ s : State, s.script = [] →
    (∃ t, exec .inp s = .next t ∧ t.inReq = true ∧ t.outq = s.outq ++ [.prompt] ∧ t.script = []
        ∧ t.acc = s.acc ∧ t.pc = s.pc ∧ SameMemory s t ∧ SameStatus s t ∧ SameRest s t)
      ∧ (s.st = .running → s.inReq = true → ∀ k, Sys2Proof.core.run k s = .next s)

/-- An INP whose answer comes later ends as one whose answer was there at once: while it waits, IW holds 901 with
opcode 9 and operand 1, any number of steps change nothing, and a cancel asserted during the wait is kept and not
sampled (the wait and the script are the model's: log entries 4 and 5). -/
def Obligations.InpAnswerDelayIsInvisible : Prop :=
  ∀ (s : State) (p : Addr) (r : InAnswer), s.Ready → s.script = [] → s.pc = p.castSucc → (s.memRead p).val = 901 →
    ∃ t u, step s = .next t ∧ t.inReq = true ∧ t.st = .running ∧ t.outq = s.outq ++ [.prompt] ∧ t.pc = p.succ
      ∧ t.heldOpcode = some 9 ∧ t.heldOperand = some 1
      ∧ (∀ k, Sys2Proof.core.run k t = .next t)
      ∧ step { s with script := [r] } = .next u ∧ u.inReq = false ∧ u.iw = none
      ∧ step (giveAnswer r t) = .next u
      ∧ ∀ b, step (giveAnswer r (setCancel b t)) = .next (setCancel b u)

/-- R134. -/
def Obligations.OutEmitsSignedAccumulator : Prop :=
  decode 902 = .instr .out
    ∧ (∀ s : State, ∃ t, exec .out s = .next t ∧ t.outq = s.outq ++ [.value (decodeSigned s.acc)]
      ∧ t.acc = s.acc ∧ t.pc = s.pc ∧ t.inReq = s.inReq ∧ t.script = s.script
      ∧ SameMemory s t ∧ SameStatus s t ∧ SameRest s t)
    ∧ ∀ (s : State) (p : Addr), s.FetchesAt p 902 →
      ∃ t, step s = .next t ∧ t.outq = s.outq ++ [.value (decodeSigned s.acc)] ∧ t.acc = s.acc ∧ t.pc = p.succ
        ∧ t.inReq = s.inReq ∧ t.script = s.script ∧ SameMemory s t ∧ SameStatus s t ∧ CycleEnded s t

/-- R75: the illegal words of opcode 9 under both values of the parameter, Fault being the default. -/
def Obligations.IllegalNineFaultsOrDoesNothing : Prop :=
  Config.default.ioOtherOperand = .fault
    ∧ ∀ a : Addr, a.val ≠ 1 → a.val ≠ 2 →
      decode (900 + a.val) = .instr (.illegal9 a)
        ∧ ∀ s : State,
          (s.cfg.ioOtherOperand = .fault →
            (∃ t, exec (.illegal9 a) s = .next t ∧ t.st = .faulted
              ∧ t.fr = some (.invalidInstruction 9 ((s.pc.val : Int) - 1))
              ∧ t.acc = s.acc ∧ t.pc = s.pc ∧ SameMemory s t ∧ SameConsole s t ∧ SameRest s t)
            ∧ ∀ p : Addr, s.FetchesAt p (900 + a.val) →
              ∃ t, step s = .next t ∧ t.st = .faulted ∧ t.fr = some (.invalidInstruction 9 p.val) ∧ t.acc = s.acc
                ∧ t.pc = p.succ ∧ SameMemory s t ∧ SameConsole s t ∧ CycleEnded s t)
          ∧ (s.cfg.ioOtherOperand = .nop →
            exec (.illegal9 a) s = .next s
            ∧ ∀ p : Addr, s.FetchesAt p (900 + a.val) → step s = .next { s with pc := p.succ, iw := none })

/-- A step that takes a whole cycle runs the decoded instruction, with IW latched and PC incremented before it and IW
dropped after it unless an input request is outstanding. -/
def Obligations.StepRunsDecodedInstruction : Prop :=
  ∀ (s : State) (p : Addr) (i : Instr), s.Ready → s.pc = p.castSucc → decode (s.memRead p).val = .instr i →
    ∃ t, exec i { s with iw := some (s.memRead p), pc := p.succ } = .next t
      ∧ step s = .next { t with iw := if t.inReq then t.iw else none }

/-- R91. -/
def Obligations.NoCycleUnlessRunning : Prop :=
  ∀ s : State, s.st ≠ .running → ∀ k, Sys2Proof.core.run k s = .next s

/-- R92: cancel is sampled first in a cycle, whatever PC and the fetched word are, and changes ST alone; it is not
sampled during an INP's wait, nor at all when the input does not exist. -/
def Obligations.CancelIsSampledAtCycleStart : Prop :=
  ∀ s : State,
    (s.st = .running → s.inReq = false → s.cfg.cancelPresent = true → s.cancel = true →
        step s = .next { s with st := .stopped })
      ∧ (∀ (b : Bool) (t : State), s.inReq = true ∨ s.cfg.cancelPresent = false →
          step s = .next t → step { s with cancel := b } = .next { t with cancel := b })

/-- R93, R151: at PC 100 the cycle fetches nothing and changes ST and FR alone; at any other PC no such fault arises,
and a HLT at 99 halts. -/
def Obligations.PcCheckFailsExactlyAtHundred : Prop :=
  ∀ s : State, s.Ready →
    (s.pc.val = 100 → step s = .next { s with st := .faulted, fr := some (.pcOutOfBounds s.pc) })
      ∧ (s.pc.val ≠ 100 → s.fr = none → ∀ (t : State) (q : PcVal), step s = .next t → t.fr ≠ some (.pcOutOfBounds q))
      ∧ (s.pc.val = 99 → (s.memRead 99).val = 0 →
          ∃ t, step s = .next t ∧ t.st = .halted ∧ t.pc.val = 100 ∧ t.fr = s.fr)

/-- Taking a fault (60_exceptions.md section 2) writes FR and ST and nothing else, and no later step takes a cycle. That
no later statement of the faulting cycle acts is said of whole steps by `FaultsArePrecise` and
`LateInputFaultIsPrecise`. -/
def Obligations.FaultEntryWritesFrAndStAndEndsRun : Prop :=
  ∀ (r : FaultRecord) (s : State),
    (s.raiseFault r).fr = some r ∧ (s.raiseFault r).st = .faulted
      ∧ (s.raiseFault r).acc = s.acc ∧ (s.raiseFault r).pc = s.pc ∧ SameMemory s (s.raiseFault r)
      ∧ SameConsole s (s.raiseFault r) ∧ SameRest s (s.raiseFault r)
      ∧ ∀ k, Sys2Proof.core.run k (s.raiseFault r) = .next (s.raiseFault r)

/-- R158: whatever cycle leaves ST at Faulted, the state is the one before it but for what R158 lists, and no later step
does anything. The answers still to come are the host's and no part of this. The first premise is the machine's
invariant; the fault of an INP whose answer came late is `LateInputFaultIsPrecise`. -/
def Obligations.FaultsArePrecise : Prop :=
  ∀ s t : State, s.Inv → s.st = .running → s.inReq = false → step s = .next t → t.st = .faulted →
    (∀ k, Sys2Proof.core.run k t = .next t) ∧
    ((s.pc.val = 100 ∧ t = { s with st := .faulted, fr := some (.pcOutOfBounds s.pc) })
      ∨ (∃ p : Addr, s.pc = p.castSucc ∧ (s.memRead p).val / 100 = 9 ∧ (s.memRead p).val ≠ 901 ∧ (s.memRead p).val ≠ 902
          ∧ t = { s with st := .faulted, fr := some (.invalidInstruction 9 p.val), pc := p.succ })
      ∨ (∃ p : Addr, s.pc = p.castSucc ∧ (s.memRead p).val = 901 ∧ s.script.head? = some .fail
          ∧ t = { s with st := .faulted, fr := some (.inputReadError p.val), pc := p.succ,
                         outq := s.outq ++ [.prompt], script := t.script }))

/-- R98: PC after a cycle, and the fault of the cycle after one that left it at 100. -/
def Obligations.PcAfterCycle : Prop :=
  ∀ (s t : State) (p : Addr), s.Ready → s.pc = p.castSucc → step s = .next t →
    ((s.memRead p).val / 100 = 6 ∨ ((s.memRead p).val / 100 = 7 ∧ decodeSigned s.acc = 0)
        ∨ ((s.memRead p).val / 100 = 8 ∧ 0 ≤ decodeSigned s.acc) → t.pc.val = (s.memRead p).val % 100)
      ∧ (¬((s.memRead p).val / 100 = 6 ∨ ((s.memRead p).val / 100 = 7 ∧ decodeSigned s.acc = 0)
        ∨ ((s.memRead p).val / 100 = 8 ∧ 0 ≤ decodeSigned s.acc)) → t.pc.val = p.val + 1)
      ∧ (t.st = .running → t.inReq = false → t.pc.val = 100 →
        ∃ u, step t = .next u ∧ u.st = .faulted ∧ u.fr = some (.pcOutOfBounds t.pc))

/-- A step changes a cell only where it runs the STA that names the cell, and then the cell holds ACC. -/
def Obligations.OnlyStaChangesMemoryInAStep : Prop :=
  ∀ (s t : State) (b : Addr), Memory.wf s.mem = true → step s = .next t → t.memRead b ≠ s.memRead b →
    s.Ready ∧ t.memRead b = s.acc ∧ ∃ p : Addr, s.pc = p.castSucc ∧ (s.memRead p).val = 300 + b.val

/-- ACC is written by ADD, SUB, MUL, LDA and INP alone, and what the instructions that do not read it leave does not
depend on it. -/
def Obligations.AccumulatorReadersAndWriters : Prop :=
  ∀ (i : Instr) (s t : State), exec i s = .next t →
    (i.mnemonic ∉ ["ADD", "SUB", "MUL", "LDA", "INP"] → t.acc = s.acc)
      ∧ (∀ v : Word, i.mnemonic ∈ ["HLT", "BRA", "INP", "LDA", "ILLEGAL_9"] →
          ∃ u, exec i { s with acc := v } = .next u ∧ u = { t with acc := u.acc })
      ∧ (∀ (v : Word) (n : Int) (rest : List InAnswer), i = .inp → s.script = .ok n :: rest →
          exec i { s with acc := v } = .next t)

/-- R131: which instruction emits which events, in which order; a fault emits none. -/
def Obligations.EventsEmittedByEachInstruction : Prop :=
  (∀ (i : Instr) (s t : State), exec i s = .next t →
      (i = .out → t.outq = s.outq ++ [.value (decodeSigned s.acc)]
          ∧ -500 ≤ decodeSigned s.acc ∧ decodeSigned s.acc ≤ 499)
        ∧ (i = .inp → (∃ n rest, s.script = .ok n :: rest ∧ (n < -999 ∨ 999 < n)) →
            t.outq = s.outq ++ [.prompt, .invalidInputDiag])
        ∧ (i = .inp → ¬(∃ n rest, s.script = .ok n :: rest ∧ (n < -999 ∨ 999 < n)) → t.outq = s.outq ++ [.prompt])
        ∧ (i ≠ .out → i ≠ .inp → t.outq = s.outq))
    ∧ ∀ (r : FaultRecord) (s : State), (s.raiseFault r).outq = s.outq

/-- Over any number of steps the output stream only grows, by at most two events a step. -/
def Obligations.OutputStreamOnlyGrows : Prop :=
  ∀ (k : Nat) (s t : State), Sys2Proof.core.run k s = .next t →
    ∃ es : List OutEvent, t.outq = s.outq ++ es ∧ es.length ≤ 2 * k

/-- ST changes in a step only from Running, by a cancel, a HLT or a fault; and by the host's commands other than a step,
a run or a reset only from Idle to Running, by a load. -/
def Obligations.StatusChangesOnlyByHltFaultCancelLoad : Prop :=
  (∀ s t : State, step s = .next t → t.st ≠ s.st →
      s.st = .running
        ∧ ((t.st = .stopped ∧ s.inReq = false ∧ s.cfg.cancelPresent = true ∧ s.cancel = true)
          ∨ (t.st = .halted ∧ ∃ p : Addr, s.pc = p.castSucc ∧ (s.memRead p).val < 100)
          ∨ (t.st = .faulted ∧ t.fr ≠ none)))
    ∧ ∀ (c : HostCommand) (s : State), c ≠ .step → c ≠ .reset → (∀ k, c ≠ .run k) →
        (applyCommand c s).st ≠ s.st → s.st = .idle ∧ (applyCommand c s).st = .running ∧ ∃ xs, c = .load xs

/-- R31: the state after reset, under any parameters, and after a successful load. -/
def Obligations.ResetAndLoadedState : Prop :=
  ∀ (c : Config) (xs : List Int) (t : State),
    (∀ b : Addr, ((State.resetWith c).memRead b).val = 0)
      ∧ (State.resetWith c).acc.val = 0 ∧ (State.resetWith c).pc.val = 0 ∧ (State.resetWith c).st = .idle
      ∧ (State.resetWith c).fr = none ∧ (State.resetWith c).outq = [] ∧ (State.resetWith c).iw = none
      ∧ (load xs (State.resetWith c) = (t, .ok) →
          (∀ b : Addr, ((t.memRead b).val : Int) = (xs[b.val]?).getD 0)
            ∧ t.acc.val = 0 ∧ t.pc.val = 0 ∧ t.st = .running ∧ t.fr = none ∧ t.outq = [] ∧ t.iw = none)

/-- R58, R155: when a load is accepted and what it writes; when it is not, with which answer, and that nothing changes
then. The premise is the machine's invariant. -/
def Obligations.LoadAcceptsOrRefuses : Prop :=
  ∀ (xs : List Int) (s : State), s.Inv →
    (s.st ≠ .idle → load xs s = (s, .refused))
      ∧ (s.st = .idle → (100 < xs.length ∨ ∃ x ∈ xs, x < 0 ∨ 999 < x) → load xs s = (s, .configurationError))
      ∧ (s.st = .idle → xs.length ≤ 100 → (∀ x ∈ xs, 0 ≤ x ∧ x ≤ 999) →
          ∃ t, load xs s = (t, .ok) ∧ (∀ b : Addr, ((t.memRead b).val : Int) = (xs[b.val]?).getD 0)
            ∧ t.st = .running ∧ t.acc.val = 0 ∧ t.pc.val = 0 ∧ t.fr = s.fr ∧ SameConsole s t ∧ SameRest s t)

/-- R183: a reset in any status discards everything the core holds, abandons an outstanding request, and is the only
command that leaves a terminal status. -/
def Obligations.ResetIsTheOnlyWayOut : Prop :=
  ∀ s : State,
    (applyReset s).st = .idle ∧ (∀ b : Addr, ((applyReset s).memRead b).val = 0) ∧ (applyReset s).acc.val = 0
      ∧ (applyReset s).pc.val = 0 ∧ (applyReset s).fr = none ∧ (applyReset s).outq = [] ∧ (applyReset s).iw = none
      ∧ (applyReset s).inReq = false
      ∧ ∀ c : HostCommand, s.st.terminal = true → (applyCommand c s).st ≠ s.st → c = .reset

/-- R159: no command but a reset changes the outcome of a run that has ended, and after a reset a load is accepted. -/
def Obligations.TerminalOutcomeIsFinal : Prop :=
  ∀ s : State, s.st.terminal = true →
    (∀ c : HostCommand, c ≠ .reset →
        (applyCommand c s).st = s.st ∧ (applyCommand c s).fr = s.fr ∧ (applyCommand c s).acc = s.acc
          ∧ (applyCommand c s).pc = s.pc ∧ (applyCommand c s).mem = s.mem ∧ (applyCommand c s).outq = s.outq)
      ∧ ∀ xs : List Int, ((load xs s).2 = .refused)
        ∧ (xs.length ≤ 100 → (∀ x ∈ xs, 0 ≤ x ∧ x ≤ 999) → (load xs (applyReset s)).2 = .ok)

/-- A STA, to its own cell too, completes and its cell reads as stored; when it stored to the next cell, the next step
runs the stored word. The premise is the canonical form of memory, part of the invariant of `StepKeepsInvariant`. -/
def Obligations.StoredWordIsFetchedByNextCycle : Prop :=
  ∀ (s : State) (p q : Addr), Memory.wf s.mem = true → s.Ready → s.pc = p.castSucc →
    (s.memRead p).val = 300 + q.val →
    ∃ t, step s = .next t ∧ t.Ready ∧ t.pc = p.succ ∧ t.acc = s.acc ∧ t.memRead q = s.acc
      ∧ (∀ b : Addr, b ≠ q → t.memRead b = s.memRead b)
      ∧ ∀ i : Instr, q.val = p.val + 1 → decode s.acc.val = .instr i →
          ∃ u, exec i { t with iw := some s.acc, pc := q.succ } = .next u
            ∧ step t = .next { u with iw := if u.inReq then u.iw else none }

/-- A load after a store reads the Word stored from the same cell, and what was there before from any other. The
premise is the canonical form of memory. -/
def Obligations.LdaReadsTheLatestStore : Prop :=
  ∀ (s t : State) (a b : Addr), Memory.wf s.mem = true → exec (.sta a) s = .next t →
    ∃ u, exec (.lda b) t = .next u ∧ (b = a → u.acc = s.acc) ∧ (b ≠ a → u.acc = s.memRead b)

/-- Equal memories are equal data: two lists in canonical form that read the same everywhere are the same list (the
form is the model's: log entry 1). -/
def Obligations.CanonicalMemoriesAreEqualData : Prop :=
  ∀ m n : Memory, Memory.wf m = true → Memory.wf n = true →
    (∀ b : Addr, Memory.read m b.val = Memory.read n b.val) → m = n

/-- Every step of every state answers a next state. That form is the model's: the spec's faults are next states (log
entry 11), the step of a core that is not Running answers the same state (log entry 12), and so does that of a waiting
INP, where the spec has no step (log entry 5). -/
def Obligations.EveryStepAnswersNext : Prop :=
  ∀ s : State, ∃ t, step s = .next t

/-- The invariant holds after reset, under any parameters (the canonical form of memory in it is the model's: log entry
1). -/
def Obligations.ResetSatisfiesInvariant : Prop :=
  State.reset.Inv ∧ ∀ c : Config, (State.resetWith c).Inv

/-- The invariant is kept by every step, from every state that has it. In it the canonical form of memory (log entry 1)
and the latch and the request kept between the steps of a waiting INP (log entries 5 and 6) are the model's. -/
def Obligations.StepKeepsInvariant : Prop :=
  ∀ s t : State, s.Inv → step s = .next t → t.Inv

/-- The invariant is kept by everything the host can do, so every state a host can bring about has it. In it
the canonical form of memory (log entry 1) and the latch and the request kept between the steps of a waiting INP (log
entries 5 and 6) are the model's. -/
def Obligations.HostCommandsKeepInvariant : Prop :=
  (∀ (c : HostCommand) (s : State), s.Inv → (applyCommand c s).Inv) ∧ ∀ s : State, Reachable s → s.Inv

/-- A BRA to its own address loops for ever with no other effect, as long as no cancel is asserted. -/
def Obligations.SelfBranchLoopsForever : Prop :=
  ∀ (s : State) (p : Addr), s.Ready → s.iw = none → s.pc = p.castSucc → (s.memRead p).val = 600 + p.val →
    ∀ k, Sys2Proof.core.run k s = .next s

/-- The step transaction takes one step and answers of the state it leaves; the run transaction stops at the first
answer that is not Continue (the answers `waiting` and `idle` and the bound are the model's: log entry 10). -/
def Obligations.HostStepAndRunAnswer : Prop :=
  (∀ s : State, ∃ t, step s = .next t ∧ hostStep s = (t, stepAnswer t))
    ∧ (∀ s : State, (s.st = .halted → stepAnswer s = .halted) ∧ (s.st = .faulted → stepAnswer s = .faulted s.fr)
        ∧ (s.st = .stopped → stepAnswer s = .stopped)
        ∧ (s.st = .running → s.inReq = false → stepAnswer s = .goesOn))
    ∧ ∀ (k : Nat) (s t : State) (a : StepAnswer), hostRun k s = (t, a) →
        ∃ j, j ≤ k ∧ Sys2Proof.core.run j s = .next t ∧ a = stepAnswer t ∧ (a = .goesOn → j = k)

/-- R33. -/
def Obligations.StatusAndFaultCodes : Prop :=
  Status.idle.code = 0 ∧ Status.running.code = 1 ∧ Status.halted.code = 2 ∧ Status.faulted.code = 3
    ∧ Status.stopped.code = 4
    ∧ (∀ p, (FaultRecord.pcOutOfBounds p).code = 1) ∧ (∀ op ad, (FaultRecord.invalidInstruction op ad).code = 2)
    ∧ (∀ ad, (FaultRecord.inputReadError ad).code = 3)
    ∧ ∀ s : State, statusPort s = (s.st.code, s.fr.map (fun r => (r.code, r)))

/-- A step takes at most one of the host's answers, and takes one only for an INP; an INP takes exactly the first one
that is there, and its request is then no longer outstanding (the script is the model's: log entry 4). -/
def Obligations.OnlyInpTakesAnAnswer : Prop :=
  (∀ s t : State, step s = .next t →
    t.script = s.script
      ∨ ∃ r, s.script = r :: t.script ∧ s.st = .running
        ∧ (s.inReq = true ∨ ∃ p : Addr, s.pc = p.castSucc ∧ (s.memRead p).val = 901))
    ∧ ∀ (r : InAnswer) (rest : List InAnswer) (s : State), s.script = r :: rest →
        (∃ t, exec .inp s = .next t ∧ t.script = rest ∧ t.inReq = false)
          ∧ (s.st = .running → s.inReq = true → ∃ t, step s = .next t ∧ t.script = rest ∧ t.inReq = false)

/-- No host command and no step changes the parameters, and only the host's own cancel command changes the cancel
input (the fields are the model's: log entries 7 and 8; that a reset keeps the cancel input's level and the parameters
is the model's choice: log entry 9). -/
def Obligations.ParametersAndCancelInputAreKept : Prop :=
  ∀ (c : HostCommand) (s : State),
    (applyCommand c s).cfg = s.cfg ∧ ((∀ b, c ≠ .cancel b) → (applyCommand c s).cancel = s.cancel)

/-- What an instruction computes does not depend on the parameters, but for the illegal words of opcode 9. -/
def Obligations.ParametersMatterOnlyForIllegalWords : Prop :=
  ∀ (i : Instr) (s t : State) (c : Config), (∀ a, i ≠ .illegal9 a) → exec i s = .next t →
    exec i { s with cfg := c } = .next { t with cfg := c }

/-- The host's text of events and endings, from the text R137 and R171 give; the open parts are the host's
parameters. -/
def Obligations.HostTextOfEventsAndEndings : Prop :=
  ∀ h : HostParams,
    renderEvent h .prompt = "Enter a value (-999 to 999): " ++ (if h.newlinePrompt then "\n" else "")
      ∧ renderEvent h .invalidInputDiag = "Invalid input. Using 0." ++ (if h.newlineDiag then "\n" else "")
      ∧ (∀ v : Int, renderEvent h (.value v) = "Output: " ++ toString v ++ "\n")
      ∧ (∀ p, renderFault h (.pcOutOfBounds p) = "Error: Program counter out of bounds")
      ∧ (∀ op ad, renderFault h (.invalidInstruction op ad)
          = "Error: Invalid instruction " ++ toString op ++ " at address " ++ toString ad)
      ∧ exitStatus h .faulted = some 1 ∧ exitStatus h .halted = some h.exitSuccess
      ∧ exitStatus h .stopped = some h.exitStopped

/-- The fault of an INP whose answer Fail comes while the core waits: the Prompt is out and PC already holds the next
address, and the step changes FR, ST and what the wait held, nothing else; no later step does anything (the wait is the
model's: log entry 5). The first premise is the machine's invariant. -/
def Obligations.LateInputFaultIsPrecise : Prop :=
  ∀ s t : State, s.Inv → s.inReq = true → step s = .next t → t.st = .faulted →
    (∀ k, Sys2Proof.core.run k t = .next t)
      ∧ ∃ (p : Addr) (rest : List InAnswer), s.pc = p.succ ∧ (s.memRead p).val = 901 ∧ s.script = .fail :: rest
          ∧ s.outq.getLast? = some .prompt
          ∧ t = { s with st := .faulted, fr := some (.inputReadError p.val), script := rest, inReq := false,
                         iw := none }
end

