-- ==== Sys2Proof/Laws/Datapath.lean ====
section
/-! SUPPORT. The signed-value conversion, said once. -/

namespace Sys2Proof.Machine

theorem decodeSigned_of_ge {w : Word} (h : 500 ≤ w.val) : decodeSigned w = (w.val : Int) - 1000 := if_pos h

theorem decodeSigned_of_lt {w : Word} (h : w.val < 500) : decodeSigned w = (w.val : Int) := if_neg (by simp only [Config.signSplit]; omega)

/-- Everything decode can answer: the word's value, or 1000 less. -/
theorem decodeSigned_cases (w : Word) :
    (500 ≤ w.val ∧ decodeSigned w = (w.val : Int) - 1000) ∨ (w.val < 500 ∧ decodeSigned w = (w.val : Int)) := by
  by_cases h : 500 ≤ w.val
  · exact .inl ⟨h, decodeSigned_of_ge h⟩
  · exact .inr ⟨by omega, decodeSigned_of_lt (by omega)⟩

/-- The value encode writes is the Euclidean residue. -/
theorem encodeSigned_val (x : Int) : ((encodeSigned x).val : Int) = x % 1000 :=
  Int.toNat_of_nonneg (Int.emod_nonneg x (by decide))

/-- Encode depends on the residue alone. -/
theorem encodeSigned_congr {x y : Int} (h : x % 1000 = y % 1000) : encodeSigned x = encodeSigned y := by
  have hx := encodeSigned_val x
  have hy := encodeSigned_val y
  exact Fin.ext (by omega)

@[simp] theorem encodeSigned_zero : encodeSigned 0 = 0 := rfl

end Sys2Proof.Machine
end

