-- ==== Sys2Proof/Laws/Decode.lean ====
section
/-! SUPPORT. What the decoder can answer, said once. -/

namespace Sys2Proof

@[simp] theorem operandOf_val (w : Nat) : (operandOf w).val = w % 100 := rfl

@[simp] theorem packWord_val (op : Fin 10) (a : Addr) : (packWord op a).val = op.val * 100 + a.val := rfl

theorem opcodeOf_pack (op a : Nat) (h : a < 100) : opcodeOf (op * 100 + a) = op := by
  simp only [opcodeOf, Config.opDiv]
  omega

theorem operandOf_pack (op : Nat) (a : Addr) : operandOf (op * 100 + a.val) = a := by
  apply Fin.ext
  have := a.isLt
  simp only [operandOf_val]
  omega

/-- The decoder on a value given by its opcode and operand. -/
theorem decode_of_fields {w op : Nat} {a : Addr} (h : w = 100 * op + a.val) :
    opcodeOf w = op ∧ operandOf w = a := by
  subst h
  rw [Nat.mul_comm]
  exact ⟨opcodeOf_pack _ _ a.isLt, operandOf_pack _ _⟩

/-- Opcode 9 by operand: everything `decodeIo` can answer. -/
theorem decodeIo_cases (a : Addr) :
    (a.val = 1 ∧ decodeIo a = .inp) ∨ (a.val = 2 ∧ decodeIo a = .out)
      ∨ (a.val ≠ 1 ∧ a.val ≠ 2 ∧ decodeIo a = .illegal9 a) := by
  by_cases h1 : a.val = 1
  · exact .inl ⟨h1, if_pos h1⟩
  · by_cases h2 : a.val = 2
    · exact .inr (.inl ⟨h2, by unfold decodeIo; rw [if_neg h1, if_pos h2]⟩)
    · exact .inr (.inr ⟨h1, h2, by unfold decodeIo; rw [if_neg h1, if_neg h2]⟩)

/-- The opcode of a decoded instruction is the one extracted from the value, so an instruction of opcode `op` was
read from a value of `op` hundreds. -/
theorem opcode_of_decode {w : Nat} {i : Instr} (h : decode w = .instr i) :
    i.opcode.val = w / 100 ∧ i.operand.val = w % 100 := by
  have hop : opcodeOf w = w / 100 := rfl
  unfold decode at h
  split at h
  case h_10 =>
    rcases decodeIo_cases (operandOf w) with ⟨h1, h2⟩ | ⟨h1, h2⟩ | ⟨h1, h2, h3⟩ <;>
      simp_all <;> subst h <;> simp_all [Instr.opcode, Instr.operand]
  case h_11 => cases h
  all_goals
    injection h with h
    subst h
    exact ⟨by rw [← hop, ‹opcodeOf w = _›]; rfl, rfl⟩

/-- A Word never decodes to an opcode outside 0..9. -/
theorem decode_word_not_invalid (w : Word) (op : Nat) : decode w.val ≠ .invalidOpcode op := by
  intro h
  have hw := w.isLt
  have hop : opcodeOf w.val ≤ 9 := by simp only [opcodeOf, Config.opDiv]; omega
  unfold decode at h
  split at h <;> try cases h
  rename_i h0 h1 h2 h3 h4 h5 h6 h7 h8 h9
  have hall : ∀ n, n ≤ 9 → n = 0 ∨ n = 1 ∨ n = 2 ∨ n = 3 ∨ n = 4 ∨ n = 5 ∨ n = 6 ∨ n = 7 ∨ n = 8 ∨ n = 9 := by omega
  rcases hall _ hop with h | h | h | h | h | h | h | h | h | h <;> contradiction

end Sys2Proof
end

