-- ==== Sys2Proof/Laws/State.lean ====
section
/-! SUPPORT. What each named update of the state leaves in each field. -/

namespace Sys2Proof.Machine

variable (s : State)

@[simp] theorem State.setAcc_mem (v : Word) : (s.setAcc v).mem = s.mem := rfl
@[simp] theorem State.setAcc_acc (v : Word) : (s.setAcc v).acc = v := rfl
@[simp] theorem State.setAcc_pc (v : Word) : (s.setAcc v).pc = s.pc := rfl
@[simp] theorem State.setAcc_st (v : Word) : (s.setAcc v).st = s.st := rfl
@[simp] theorem State.setAcc_fr (v : Word) : (s.setAcc v).fr = s.fr := rfl
@[simp] theorem State.setAcc_outq (v : Word) : (s.setAcc v).outq = s.outq := rfl
@[simp] theorem State.setAcc_iw (v : Word) : (s.setAcc v).iw = s.iw := rfl
@[simp] theorem State.setAcc_inReq (v : Word) : (s.setAcc v).inReq = s.inReq := rfl
@[simp] theorem State.setAcc_script (v : Word) : (s.setAcc v).script = s.script := rfl
@[simp] theorem State.setAcc_cancel (v : Word) : (s.setAcc v).cancel = s.cancel := rfl
@[simp] theorem State.setAcc_cfg (v : Word) : (s.setAcc v).cfg = s.cfg := rfl

@[simp] theorem State.setPc_mem (v : PcVal) : (s.setPc v).mem = s.mem := rfl
@[simp] theorem State.setPc_acc (v : PcVal) : (s.setPc v).acc = s.acc := rfl
@[simp] theorem State.setPc_pc (v : PcVal) : (s.setPc v).pc = v := rfl
@[simp] theorem State.setPc_st (v : PcVal) : (s.setPc v).st = s.st := rfl
@[simp] theorem State.setPc_fr (v : PcVal) : (s.setPc v).fr = s.fr := rfl
@[simp] theorem State.setPc_outq (v : PcVal) : (s.setPc v).outq = s.outq := rfl
@[simp] theorem State.setPc_iw (v : PcVal) : (s.setPc v).iw = s.iw := rfl
@[simp] theorem State.setPc_inReq (v : PcVal) : (s.setPc v).inReq = s.inReq := rfl
@[simp] theorem State.setPc_script (v : PcVal) : (s.setPc v).script = s.script := rfl
@[simp] theorem State.setPc_cancel (v : PcVal) : (s.setPc v).cancel = s.cancel := rfl
@[simp] theorem State.setPc_cfg (v : PcVal) : (s.setPc v).cfg = s.cfg := rfl

@[simp] theorem State.memWrite_mem (a : Addr) (v : Word) : (s.memWrite a v).mem = Memory.write s.mem a.val v := rfl
@[simp] theorem State.memWrite_acc (a : Addr) (v : Word) : (s.memWrite a v).acc = s.acc := rfl
@[simp] theorem State.memWrite_pc (a : Addr) (v : Word) : (s.memWrite a v).pc = s.pc := rfl
@[simp] theorem State.memWrite_st (a : Addr) (v : Word) : (s.memWrite a v).st = s.st := rfl
@[simp] theorem State.memWrite_fr (a : Addr) (v : Word) : (s.memWrite a v).fr = s.fr := rfl
@[simp] theorem State.memWrite_outq (a : Addr) (v : Word) : (s.memWrite a v).outq = s.outq := rfl
@[simp] theorem State.memWrite_iw (a : Addr) (v : Word) : (s.memWrite a v).iw = s.iw := rfl
@[simp] theorem State.memWrite_inReq (a : Addr) (v : Word) : (s.memWrite a v).inReq = s.inReq := rfl
@[simp] theorem State.memWrite_script (a : Addr) (v : Word) : (s.memWrite a v).script = s.script := rfl
@[simp] theorem State.memWrite_cancel (a : Addr) (v : Word) : (s.memWrite a v).cancel = s.cancel := rfl
@[simp] theorem State.memWrite_cfg (a : Addr) (v : Word) : (s.memWrite a v).cfg = s.cfg := rfl

@[simp] theorem State.emit_mem (e : OutEvent) : (s.emit e).mem = s.mem := rfl
@[simp] theorem State.emit_acc (e : OutEvent) : (s.emit e).acc = s.acc := rfl
@[simp] theorem State.emit_pc (e : OutEvent) : (s.emit e).pc = s.pc := rfl
@[simp] theorem State.emit_st (e : OutEvent) : (s.emit e).st = s.st := rfl
@[simp] theorem State.emit_fr (e : OutEvent) : (s.emit e).fr = s.fr := rfl
@[simp] theorem State.emit_outq (e : OutEvent) : (s.emit e).outq = s.outq ++ [e] := rfl
@[simp] theorem State.emit_iw (e : OutEvent) : (s.emit e).iw = s.iw := rfl
@[simp] theorem State.emit_inReq (e : OutEvent) : (s.emit e).inReq = s.inReq := rfl
@[simp] theorem State.emit_script (e : OutEvent) : (s.emit e).script = s.script := rfl
@[simp] theorem State.emit_cancel (e : OutEvent) : (s.emit e).cancel = s.cancel := rfl
@[simp] theorem State.emit_cfg (e : OutEvent) : (s.emit e).cfg = s.cfg := rfl

@[simp] theorem State.raiseFault_mem (r : FaultRecord) : (s.raiseFault r).mem = s.mem := rfl
@[simp] theorem State.raiseFault_acc (r : FaultRecord) : (s.raiseFault r).acc = s.acc := rfl
@[simp] theorem State.raiseFault_pc (r : FaultRecord) : (s.raiseFault r).pc = s.pc := rfl
@[simp] theorem State.raiseFault_st (r : FaultRecord) : (s.raiseFault r).st = .faulted := rfl
@[simp] theorem State.raiseFault_fr (r : FaultRecord) : (s.raiseFault r).fr = some r := rfl
@[simp] theorem State.raiseFault_outq (r : FaultRecord) : (s.raiseFault r).outq = s.outq := rfl
@[simp] theorem State.raiseFault_iw (r : FaultRecord) : (s.raiseFault r).iw = s.iw := rfl
@[simp] theorem State.raiseFault_inReq (r : FaultRecord) : (s.raiseFault r).inReq = s.inReq := rfl
@[simp] theorem State.raiseFault_script (r : FaultRecord) : (s.raiseFault r).script = s.script := rfl
@[simp] theorem State.raiseFault_cancel (r : FaultRecord) : (s.raiseFault r).cancel = s.cancel := rfl
@[simp] theorem State.raiseFault_cfg (r : FaultRecord) : (s.raiseFault r).cfg = s.cfg := rfl

@[simp] theorem State.stop_mem : (s.stop).mem = s.mem := rfl
@[simp] theorem State.stop_acc : (s.stop).acc = s.acc := rfl
@[simp] theorem State.stop_pc : (s.stop).pc = s.pc := rfl
@[simp] theorem State.stop_st : (s.stop).st = .stopped := rfl
@[simp] theorem State.stop_fr : (s.stop).fr = s.fr := rfl
@[simp] theorem State.stop_outq : (s.stop).outq = s.outq := rfl
@[simp] theorem State.stop_iw : (s.stop).iw = s.iw := rfl
@[simp] theorem State.stop_inReq : (s.stop).inReq = s.inReq := rfl
@[simp] theorem State.stop_script : (s.stop).script = s.script := rfl
@[simp] theorem State.stop_cancel : (s.stop).cancel = s.cancel := rfl
@[simp] theorem State.stop_cfg : (s.stop).cfg = s.cfg := rfl

@[simp] theorem State.halt_mem : (s.halt).mem = s.mem := rfl
@[simp] theorem State.halt_acc : (s.halt).acc = s.acc := rfl
@[simp] theorem State.halt_pc : (s.halt).pc = s.pc := rfl
@[simp] theorem State.halt_st : (s.halt).st = .halted := rfl
@[simp] theorem State.halt_fr : (s.halt).fr = s.fr := rfl
@[simp] theorem State.halt_outq : (s.halt).outq = s.outq := rfl
@[simp] theorem State.halt_iw : (s.halt).iw = s.iw := rfl
@[simp] theorem State.halt_inReq : (s.halt).inReq = s.inReq := rfl
@[simp] theorem State.halt_script : (s.halt).script = s.script := rfl
@[simp] theorem State.halt_cancel : (s.halt).cancel = s.cancel := rfl
@[simp] theorem State.halt_cfg : (s.halt).cfg = s.cfg := rfl

@[simp] theorem State.beginCycle_mem (a : Addr) : (s.beginCycle a).mem = s.mem := rfl
@[simp] theorem State.beginCycle_acc (a : Addr) : (s.beginCycle a).acc = s.acc := rfl
@[simp] theorem State.beginCycle_pc (a : Addr) : (s.beginCycle a).pc = a.succ := rfl
@[simp] theorem State.beginCycle_st (a : Addr) : (s.beginCycle a).st = s.st := rfl
@[simp] theorem State.beginCycle_fr (a : Addr) : (s.beginCycle a).fr = s.fr := rfl
@[simp] theorem State.beginCycle_outq (a : Addr) : (s.beginCycle a).outq = s.outq := rfl
@[simp] theorem State.beginCycle_iw (a : Addr) : (s.beginCycle a).iw = some (s.memRead a) := rfl
@[simp] theorem State.beginCycle_inReq (a : Addr) : (s.beginCycle a).inReq = s.inReq := rfl
@[simp] theorem State.beginCycle_script (a : Addr) : (s.beginCycle a).script = s.script := rfl
@[simp] theorem State.beginCycle_cancel (a : Addr) : (s.beginCycle a).cancel = s.cancel := rfl
@[simp] theorem State.beginCycle_cfg (a : Addr) : (s.beginCycle a).cfg = s.cfg := rfl

@[simp] theorem State.endCycle_mem : (s.endCycle).mem = s.mem := rfl
@[simp] theorem State.endCycle_acc : (s.endCycle).acc = s.acc := rfl
@[simp] theorem State.endCycle_pc : (s.endCycle).pc = s.pc := rfl
@[simp] theorem State.endCycle_st : (s.endCycle).st = s.st := rfl
@[simp] theorem State.endCycle_fr : (s.endCycle).fr = s.fr := rfl
@[simp] theorem State.endCycle_outq : (s.endCycle).outq = s.outq := rfl
@[simp] theorem State.endCycle_iw : (s.endCycle).iw = if s.inReq then s.iw else none := rfl
@[simp] theorem State.endCycle_inReq : (s.endCycle).inReq = s.inReq := rfl
@[simp] theorem State.endCycle_script : (s.endCycle).script = s.script := rfl
@[simp] theorem State.endCycle_cancel : (s.endCycle).cancel = s.cancel := rfl
@[simp] theorem State.endCycle_cfg : (s.endCycle).cfg = s.cfg := rfl

@[simp] theorem requestInput_mem : (requestInput s).mem = s.mem := rfl
@[simp] theorem requestInput_acc : (requestInput s).acc = s.acc := rfl
@[simp] theorem requestInput_pc : (requestInput s).pc = s.pc := rfl
@[simp] theorem requestInput_st : (requestInput s).st = s.st := rfl
@[simp] theorem requestInput_fr : (requestInput s).fr = s.fr := rfl
@[simp] theorem requestInput_outq : (requestInput s).outq = s.outq := rfl
@[simp] theorem requestInput_iw : (requestInput s).iw = s.iw := rfl
@[simp] theorem requestInput_inReq : (requestInput s).inReq = true := rfl
@[simp] theorem requestInput_script : (requestInput s).script = s.script := rfl
@[simp] theorem requestInput_cancel : (requestInput s).cancel = s.cancel := rfl
@[simp] theorem requestInput_cfg : (requestInput s).cfg = s.cfg := rfl

@[simp] theorem takeAnswer_mem (rest : List InAnswer) : (takeAnswer rest s).mem = s.mem := rfl
@[simp] theorem takeAnswer_acc (rest : List InAnswer) : (takeAnswer rest s).acc = s.acc := rfl
@[simp] theorem takeAnswer_pc (rest : List InAnswer) : (takeAnswer rest s).pc = s.pc := rfl
@[simp] theorem takeAnswer_st (rest : List InAnswer) : (takeAnswer rest s).st = s.st := rfl
@[simp] theorem takeAnswer_fr (rest : List InAnswer) : (takeAnswer rest s).fr = s.fr := rfl
@[simp] theorem takeAnswer_outq (rest : List InAnswer) : (takeAnswer rest s).outq = s.outq := rfl
@[simp] theorem takeAnswer_iw (rest : List InAnswer) : (takeAnswer rest s).iw = s.iw := rfl
@[simp] theorem takeAnswer_inReq (rest : List InAnswer) : (takeAnswer rest s).inReq = false := rfl
@[simp] theorem takeAnswer_script (rest : List InAnswer) : (takeAnswer rest s).script = rest := rfl
@[simp] theorem takeAnswer_cancel (rest : List InAnswer) : (takeAnswer rest s).cancel = s.cancel := rfl
@[simp] theorem takeAnswer_cfg (rest : List InAnswer) : (takeAnswer rest s).cfg = s.cfg := rfl

/-- A cycle that ends with a request outstanding keeps the whole state; one without, and with nothing latched, too. -/
theorem State.endCycle_eq_self (h : s.inReq = true ∨ s.iw = none) : s.endCycle = s := by
  cases s
  simp only [State.endCycle] at h ⊢
  split <;> simp_all

end Sys2Proof.Machine
end

