-- ==== Sys2Proof/Laws/Exec.lean ====
section
/-! SUPPORT. Each shared operation and each meaning, said once: what it answers, to be cited instead of unfolded. -/

namespace Sys2Proof.Machine

theorem operandWord_eq (s : State) (a : Addr) : operandWord s a = s.memRead a := rfl

theorem storeOperand_eq (s : State) (a : Addr) (v : Word) : storeOperand s a v = s.memWrite a v := rfl

@[simp] theorem branchTarget_val (a : Addr) : (branchTarget a).val = a.val := rfl

theorem branchIf_true (a : Addr) (s : State) : branchIf true a s = s.setPc (branchTarget a) := rfl

theorem branchIf_false (a : Addr) (s : State) : branchIf false a s = s := rfl

/-- Everything the branch controller can leave. -/
theorem branchIf_cases (c : Bool) (a : Addr) (s : State) :
    (c = true ∧ branchIf c a s = s.setPc (branchTarget a)) ∨ (c = false ∧ branchIf c a s = s) := by
  cases c
  · exact .inr ⟨rfl, rfl⟩
  · exact .inl ⟨rfl, rfl⟩

theorem acceptAnswer_fail (s : State) :
    acceptAnswer .fail s = s.raiseFault (.inputReadError s.executingAddress) := rfl

theorem acceptAnswer_outside {n : Int} (h : n < -999 ∨ 999 < n) (s : State) :
    acceptAnswer (.ok n) s = (s.emit .invalidInputDiag).setAcc 0 := by
  show (if n < Config.inpMin ∨ Config.inpMax < n then _ else _) = _
  rw [if_pos h, encodeSigned_zero]

theorem acceptAnswer_inside {n : Int} (h1 : -999 ≤ n) (h2 : n ≤ 999) (s : State) :
    acceptAnswer (.ok n) s = s.setAcc (encodeSigned n) := by
  show (if n < Config.inpMin ∨ Config.inpMax < n then _ else _) = _
  rw [if_neg (by simp only [Config.inpMin, Config.inpMax]; omega)]

/-- Everything an answer can do (R133). -/
theorem acceptAnswer_cases (r : InAnswer) (s : State) :
    (r = .fail ∧ acceptAnswer r s = s.raiseFault (.inputReadError s.executingAddress))
      ∨ (∃ n, r = .ok n ∧ (n < -999 ∨ 999 < n) ∧ acceptAnswer r s = (s.emit .invalidInputDiag).setAcc 0)
      ∨ (∃ n, r = .ok n ∧ -999 ≤ n ∧ n ≤ 999 ∧ acceptAnswer r s = s.setAcc (encodeSigned n)) := by
  cases r with
  | fail => exact .inl ⟨rfl, rfl⟩
  | ok n =>
    by_cases h : n < -999 ∨ 999 < n
    · exact .inr (.inl ⟨n, rfl, h, acceptAnswer_outside h s⟩)
    · exact .inr (.inr ⟨n, rfl, by omega, by omega, acceptAnswer_inside (by omega) (by omega) s⟩)

theorem serveInput_nil {s : State} (h : s.script = []) : serveInput s = s := by
  unfold serveInput
  rw [h]

theorem serveInput_cons {s : State} {r : InAnswer} {rest : List InAnswer} (h : s.script = r :: rest) :
    serveInput s = acceptAnswer r (takeAnswer rest s) := by
  unfold serveInput
  rw [h]

theorem exec_hlt (a : Addr) (s : State) : exec (.hlt a) s = .next s.halt := rfl

theorem exec_add (a : Addr) (s : State) : exec (.add a) s = .next (s.setAcc (alu .add s.acc (s.memRead a))) := rfl

theorem exec_sub (a : Addr) (s : State) : exec (.sub a) s = .next (s.setAcc (alu .sub s.acc (s.memRead a))) := rfl

theorem exec_mul (a : Addr) (s : State) : exec (.mul a) s = .next (s.setAcc (alu .mul s.acc (s.memRead a))) := rfl

theorem exec_lda (a : Addr) (s : State) : exec (.lda a) s = .next (s.setAcc (s.memRead a)) := rfl

theorem exec_sta (a : Addr) (s : State) : exec (.sta a) s = .next (s.memWrite a s.acc) := rfl

theorem exec_bra (a : Addr) (s : State) : exec (.bra a) s = .next (s.setPc (branchTarget a)) := rfl

theorem exec_brz (a : Addr) (s : State) : exec (.brz a) s = .next (branchIf (accIsZero s) a s) := rfl

theorem exec_brp (a : Addr) (s : State) : exec (.brp a) s = .next (branchIf (accIsNonNegative s) a s) := rfl

theorem exec_inp (s : State) : exec .inp s = .next (serveInput (requestInput (s.emit .prompt))) := rfl

theorem exec_out (s : State) : exec .out s = .next (s.emit (.value (decodeSigned s.acc))) := rfl

theorem exec_illegal9_fault {s : State} (h : s.cfg.ioOtherOperand = .fault) (a : Addr) :
    exec (.illegal9 a) s = .next (s.raiseFault (.invalidInstruction 9 s.executingAddress)) := by
  show execIllegal9 a s = _
  unfold execIllegal9
  rw [h]

theorem exec_illegal9_nop {s : State} (h : s.cfg.ioOtherOperand = .nop) (a : Addr) :
    exec (.illegal9 a) s = .next s := by
  show execIllegal9 a s = _
  unfold execIllegal9
  rw [h]

/-- The meanings of the straight-line instructions and HLT, as one case list: everything an instruction other than the
console's and the illegal words can leave. -/
theorem exec_core_cases {i : Instr} {s t : State} (h : exec i s = .next t) :
    (∃ a, i = .hlt a ∧ t = s.halt)
      ∨ (∃ v, i.mnemonic ∈ ["ADD", "SUB", "MUL", "LDA"] ∧ t = s.setAcc v)
      ∨ (∃ a, i = .sta a ∧ t = s.memWrite a s.acc)
      ∨ (i.mnemonic ∈ ["BRA", "BRZ", "BRP"] ∧ (t = s ∨ t = s.setPc (branchTarget i.operand)))
      ∨ (i = .inp ∧ t = serveInput (requestInput (s.emit .prompt)))
      ∨ (i = .out ∧ t = s.emit (.value (decodeSigned s.acc)))
      ∨ (∃ a, i = .illegal9 a ∧ s.cfg.ioOtherOperand = .fault
          ∧ t = s.raiseFault (.invalidInstruction 9 s.executingAddress))
      ∨ (∃ a, i = .illegal9 a ∧ s.cfg.ioOtherOperand = .nop ∧ t = s) := by
  cases i with
  | hlt a => exact .inl ⟨a, rfl, by rw [exec_hlt] at h; cases h; rfl⟩
  | add a => rw [exec_add] at h; cases h; exact .inr (.inl ⟨_, by simp [Instr.mnemonic], rfl⟩)
  | sub a => rw [exec_sub] at h; cases h; exact .inr (.inl ⟨_, by simp [Instr.mnemonic], rfl⟩)
  | mul a => rw [exec_mul] at h; cases h; exact .inr (.inl ⟨_, by simp [Instr.mnemonic], rfl⟩)
  | lda a => rw [exec_lda] at h; cases h; exact .inr (.inl ⟨_, by simp [Instr.mnemonic], rfl⟩)
  | sta a => rw [exec_sta] at h; cases h; exact .inr (.inr (.inl ⟨a, rfl, rfl⟩))
  | bra a =>
    rw [exec_bra] at h; cases h
    exact .inr (.inr (.inr (.inl ⟨by simp [Instr.mnemonic], .inr rfl⟩)))
  | brz a =>
    rw [exec_brz] at h; cases h
    refine .inr (.inr (.inr (.inl ⟨by simp [Instr.mnemonic], ?_⟩)))
    rcases branchIf_cases (accIsZero s) a s with ⟨-, e⟩ | ⟨-, e⟩
    · exact .inr e
    · exact .inl e
  | brp a =>
    rw [exec_brp] at h; cases h
    refine .inr (.inr (.inr (.inl ⟨by simp [Instr.mnemonic], ?_⟩)))
    rcases branchIf_cases (accIsNonNegative s) a s with ⟨-, e⟩ | ⟨-, e⟩
    · exact .inr e
    · exact .inl e
  | inp => rw [exec_inp] at h; cases h; exact .inr (.inr (.inr (.inr (.inl ⟨rfl, rfl⟩))))
  | out => rw [exec_out] at h; cases h; exact .inr (.inr (.inr (.inr (.inr (.inl ⟨rfl, rfl⟩)))))
  | illegal9 a =>
    cases hc : s.cfg.ioOtherOperand with
    | fault =>
      rw [exec_illegal9_fault hc] at h; cases h
      exact .inr (.inr (.inr (.inr (.inr (.inr (.inl ⟨a, rfl, rfl, rfl⟩))))))
    | nop =>
      rw [exec_illegal9_nop hc] at h; cases h
      exact .inr (.inr (.inr (.inr (.inr (.inr (.inr ⟨a, rfl, rfl, rfl⟩))))))

end Sys2Proof.Machine
end

