-- ==== Sys2Proof/Laws/Memory.lean ====
section
/-! SUPPORT. The memory operations: a read after a write, and the canonical form. -/

namespace Sys2Proof.Machine

@[simp] theorem Memory.read_nil (b : Nat) : Memory.read [] b = Memory.unlisted := rfl

theorem Memory.read_listed (k : Nat) (v : Word) (rest : Memory) (b : Nat) :
    Memory.read ((k, v) :: rest) b = if k = b then v else Memory.read rest b := rfl

theorem Memory.read_cons_ne {a b : Nat} (v : Word) (rest : Memory) (h : b ≠ a) :
    Memory.read (Memory.cons a v rest) b = Memory.read rest b := by
  unfold Memory.cons
  split
  · rfl
  · simp [Memory.read_listed, Ne.symm h]

/-- A write leaves every other cell alone. -/
theorem Memory.read_write_ne (m : Memory) {a b : Nat} (v : Word) (h : b ≠ a) :
    Memory.read (Memory.write m a v) b = Memory.read m b := by
  induction m with
  | nil => simp [Memory.write, Memory.read_cons_ne _ _ h]
  | cons c rest ih =>
    obtain ⟨k, w⟩ := c
    simp only [Memory.write]
    split
    · exact Memory.read_cons_ne _ _ h
    · split
      · next h2 => subst h2; simp [Memory.read_cons_ne _ _ h, Memory.read_listed, Ne.symm h]
      · simp only [Memory.read_listed, ih]

/-- Nothing below the least address of a canonical list is listed. -/
theorem Memory.read_below {m : Memory} {lo b : Nat} (hm : Memory.wfFrom m lo = true) (h : b < lo) :
    Memory.read m b = Memory.unlisted := by
  induction m generalizing lo with
  | nil => rfl
  | cons c rest ih =>
    obtain ⟨k, w⟩ := c
    simp only [Memory.wfFrom, Bool.and_eq_true, decide_eq_true_eq] at hm
    obtain ⟨⟨⟨h1, -⟩, -⟩, h4⟩ := hm
    rw [Memory.read_listed, if_neg (by omega), ih h4 (by omega)]

theorem Memory.wfFrom_mono {m : Memory} {lo lo' : Nat} (hm : Memory.wfFrom m lo = true) (h : lo' ≤ lo) :
    Memory.wfFrom m lo' = true := by
  cases m with
  | nil => rfl
  | cons c rest =>
    obtain ⟨k, w⟩ := c
    simp only [Memory.wfFrom, Bool.and_eq_true, decide_eq_true_eq] at hm ⊢
    exact ⟨⟨⟨by omega, hm.1.1.2⟩, hm.1.2⟩, hm.2⟩

theorem Memory.read_cons_same (a : Nat) (v : Word) {rest : Memory} (hr : Memory.wfFrom rest (a + 1) = true) :
    Memory.read (Memory.cons a v rest) a = v := by
  unfold Memory.cons
  split
  · next h => rw [Memory.read_below hr (Nat.lt_succ_self a), h]
  · simp [Memory.read_listed]

/-- A read after a write to the same cell gives the Word written. -/
theorem Memory.read_write_same {m : Memory} {lo : Nat} (hm : Memory.wfFrom m lo = true) (a : Nat) (v : Word) :
    Memory.read (Memory.write m a v) a = v := by
  induction m generalizing lo with
  | nil => exact Memory.read_cons_same a v rfl
  | cons c rest ih =>
    obtain ⟨k, w⟩ := c
    have h4 : Memory.wfFrom rest (k + 1) = true := by
      simp only [Memory.wfFrom, Bool.and_eq_true] at hm; exact hm.2
    simp only [Memory.write]
    split
    · next h =>
      refine Memory.read_cons_same a v ?_
      simp only [Memory.wfFrom, Bool.and_eq_true, decide_eq_true_eq] at hm ⊢
      exact ⟨⟨⟨h, hm.1.1.2⟩, hm.1.2⟩, hm.2⟩
    · split
      · next h2 => subst h2; exact Memory.read_cons_same _ _ h4
      · next h2 => rw [Memory.read_listed, if_neg (fun hk => h2 hk.symm), ih h4]

theorem Memory.cons_wfFrom {a lo : Nat} (v : Word) {rest : Memory} (h1 : lo ≤ a) (h2 : a < 100)
    (hr : Memory.wfFrom rest (a + 1) = true) : Memory.wfFrom (Memory.cons a v rest) lo = true := by
  unfold Memory.cons
  split
  · exact Memory.wfFrom_mono hr (by omega)
  · next h => simp [Memory.wfFrom, h1, h2, h, hr]

/-- A write inside the address space keeps the canonical form. -/
theorem Memory.write_wfFrom {m : Memory} {lo a : Nat} (hm : Memory.wfFrom m lo = true) (v : Word) (h1 : lo ≤ a)
    (h2 : a < 100) : Memory.wfFrom (Memory.write m a v) lo = true := by
  induction m generalizing lo with
  | nil => exact Memory.cons_wfFrom v h1 h2 rfl
  | cons c rest ih =>
    obtain ⟨k, w⟩ := c
    simp only [Memory.wfFrom, Bool.and_eq_true, decide_eq_true_eq] at hm
    obtain ⟨⟨⟨h3, h4⟩, h5⟩, h6⟩ := hm
    simp only [Memory.write]
    split
    · next h => exact Memory.cons_wfFrom v h1 h2 (by simp [Memory.wfFrom, h4, h5, h6]; omega)
    · split
      · next _ hk => subst hk; exact Memory.cons_wfFrom v h1 h2 h6
      · simp [Memory.wfFrom, h3, h4, h5, ih h6 (by omega)]

theorem Memory.write_wf {m : Memory} {a : Nat} (hm : Memory.wf m = true) (v : Word) (h : a < 100) :
    Memory.wf (Memory.write m a v) = true :=
  Memory.write_wfFrom hm v (Nat.zero_le a) h

/-- The copy of the load keeps the canonical form while it stays inside the address space. -/
theorem Memory.writeWords_wf {m : Memory} (ws : List Word) (base : Nat) (hm : Memory.wf m = true)
    (h : base + ws.length ≤ 100) : Memory.wf (Memory.writeWords m base ws) = true := by
  induction ws generalizing m base with
  | nil => exact hm
  | cons w rest ih =>
    simp only [List.length_cons] at h
    exact ih (base + 1) (Memory.write_wf hm w (by omega)) (by omega)

/-- The copy of the load leaves every cell below its base alone. -/
theorem Memory.read_writeWords_below {m : Memory} (ws : List Word) (base b : Nat) (h : b < base) :
    Memory.read (Memory.writeWords m base ws) b = Memory.read m b := by
  induction ws generalizing m base with
  | nil => rfl
  | cons w rest ih =>
    rw [Memory.writeWords, ih (base + 1) (by omega), Memory.read_write_ne _ _ (by omega)]

/-- The copy of the load: each cell holds its Word of the list, the cells past the list are left alone. -/
theorem Memory.read_writeWords {m : Memory} (ws : List Word) (base j : Nat) (hm : Memory.wf m = true)
    (h : base + ws.length ≤ 100) :
    Memory.read (Memory.writeWords m base ws) (base + j) = (ws[j]?).getD (Memory.read m (base + j)) := by
  induction ws generalizing m base j with
  | nil => simp [Memory.writeWords]
  | cons w rest ih =>
    simp only [List.length_cons] at h
    rw [Memory.writeWords]
    cases j with
    | zero =>
      have hb := Memory.read_writeWords_below (m := Memory.write m base w) rest (base + 1) base (by omega)
      simpa [Memory.read_write_same (lo := 0) hm] using hb
    | succ j =>
      rw [show base + (j + 1) = base + 1 + j by omega, ih (base + 1) j (Memory.write_wf hm w (by omega)) (by omega),
        Memory.read_write_ne _ _ (by omega)]
      simp

/-- `MemWrite` then `MemRead` of the same cell. -/
theorem State.memRead_memWrite_same (s : State) (a : Addr) (v : Word) (hm : Memory.wf s.mem = true) :
    (s.memWrite a v).memRead a = v :=
  Memory.read_write_same (lo := 0) hm a.val v

/-- `MemWrite` leaves every other cell alone. -/
theorem State.memRead_memWrite_ne (s : State) {a b : Addr} (v : Word) (h : b ≠ a) :
    (s.memWrite a v).memRead b = s.memRead b :=
  Memory.read_write_ne _ _ (fun hv => h (Fin.ext hv))

/-- A read depends on the memory alone. -/
theorem State.memRead_congr {s t : State} (h : t.mem = s.mem) (a : Addr) : t.memRead a = s.memRead a := by
  simp [State.memRead, h]

end Sys2Proof.Machine
end

