-- ==== Sys2Proof/Laws/PerInstr.lean ====
section
/-! SUPPORT. A law of the instructions as syntax, one lemma per constructor: the digits of an encoded instruction are
its opcode and its operand (spec R70). -/

namespace Sys2Proof.Laws.EncodedDigits

/-- The extractors of R71 and R72 read back what the encoder wrote. -/
def Statement (i : Instr) : Prop :=
  opcodeOf (encode i).val = i.opcode.val ∧ operandOf (encode i).val = i.operand

theorem of_pack (i : Instr) : Statement i :=
  ⟨opcodeOf_pack _ _ i.operand.isLt, operandOf_pack _ _⟩

theorem hlt (a : Addr) : Statement (.hlt a) := of_pack _
theorem add (a : Addr) : Statement (.add a) := of_pack _
theorem sub (a : Addr) : Statement (.sub a) := of_pack _
theorem sta (a : Addr) : Statement (.sta a) := of_pack _
theorem mul (a : Addr) : Statement (.mul a) := of_pack _
theorem lda (a : Addr) : Statement (.lda a) := of_pack _
theorem bra (a : Addr) : Statement (.bra a) := of_pack _
theorem brz (a : Addr) : Statement (.brz a) := of_pack _
theorem brp (a : Addr) : Statement (.brp a) := of_pack _
theorem inp : Statement .inp := of_pack _
theorem out : Statement .out := of_pack _
theorem illegal9 (a : Addr) : Statement (.illegal9 a) := of_pack _

end Sys2Proof.Laws.EncodedDigits
end

