-- ==== Sys2Proof/Laws/Step.lean ====
section
/-! SUPPORT. Everything one step can do, said once. -/

namespace Sys2Proof.Machine

/-- PC as a fetch address: inside memory, or 100. -/
theorem State.fetchAddr_cases (s : State) :
    (∃ p : Addr, s.pc = p.castSucc ∧ s.fetchAddr = some p) ∨ (s.pc.val = 100 ∧ s.fetchAddr = none) := by
  unfold State.fetchAddr
  by_cases h : s.pc.val < 100
  · exact .inl ⟨⟨s.pc.val, h⟩, Fin.ext rfl, dif_pos h⟩
  · exact .inr ⟨by have := s.pc.isLt; omega, dif_neg h⟩

theorem State.fetchAddr_of_pc {s : State} {p : Addr} (h : s.pc = p.castSucc) : s.fetchAddr = some p := by
  unfold State.fetchAddr
  have hp : s.pc.val = p.val := by rw [h]; rfl
  rw [dif_pos (by have := p.isLt; omega)]
  exact congrArg some (Fin.ext hp)

theorem State.fetchAddr_of_top {s : State} (h : s.pc.val = 100) : s.fetchAddr = none :=
  dif_neg (by omega)

theorem step_of_not_running {s : State} (h : s.st ≠ .running) : step s = .next s := by
  unfold step
  split
  · contradiction
  all_goals rfl

theorem step_of_waiting {s : State} (h1 : s.st = .running) (h2 : s.inReq = true) :
    step s = .next (serveInput s).endCycle := by
  unfold step
  rw [h1]
  exact if_pos h2

theorem step_of_cycle {s : State} (h1 : s.st = .running) (h2 : s.inReq = false) : step s = cycle s := by
  unfold step
  rw [h1]
  exact if_neg (by simp [h2])

theorem cycle_of_cancel {s : State} (h : s.cancelTaken = true) : cycle s = .next s.stop := if_pos h

theorem cycle_of_top {s : State} (h1 : s.cancelTaken = false) (h2 : s.fetchAddr = none) :
    cycle s = .next (s.raiseFault (.pcOutOfBounds s.pc)) := by
  unfold cycle
  rw [if_neg (by simp [h1]), h2]

theorem cycle_of_fetch {s : State} {p : Addr} (h1 : s.cancelTaken = false) (h2 : s.fetchAddr = some p) :
    cycle s = runFetched (s.memRead p).val (s.beginCycle p) := by
  unfold cycle
  rw [if_neg (by simp [h1]), h2]

theorem runFetched_of_instr {w : Nat} {i : Instr} (h : Sys2Proof.decode w = .instr i) (s : State) :
    runFetched w s = finishCycle (exec i s) := by
  unfold runFetched
  rw [h]

/-- The dispatch of a fetched Word always reaches an instruction (R95). -/
theorem runFetched_word (w : Word) (s : State) :
    ∃ i, Sys2Proof.decode w.val = .instr i ∧ runFetched w.val s = finishCycle (exec i s) := by
  cases h : Sys2Proof.decode w.val with
  | instr i => exact ⟨i, rfl, runFetched_of_instr h s⟩
  | invalidOpcode op => exact absurd h (decode_word_not_invalid w op)

theorem finishCycle_next {o : Host.Outcome State Fault Refusal} {t : State} (h : finishCycle o = .next t) :
    ∃ u, o = .next u ∧ t = u.endCycle := by
  cases o with
  | next u => exact ⟨u, rfl, by cases h; rfl⟩
  | fault r => cases h
  | refused r => cases h

/-- Everything a step that answers `next` can have done. -/
theorem step_cases {s t : State} (h : step s = .next t) :
    (s.st ≠ .running ∧ t = s)
      ∨ (s.st = .running ∧ s.inReq = true ∧ t = (serveInput s).endCycle)
      ∨ (s.st = .running ∧ s.inReq = false ∧ s.cancelTaken = true ∧ t = s.stop)
      ∨ (s.st = .running ∧ s.inReq = false ∧ s.cancelTaken = false ∧ s.pc.val = 100
          ∧ t = s.raiseFault (.pcOutOfBounds s.pc))
      ∨ (s.st = .running ∧ s.inReq = false ∧ s.cancelTaken = false
          ∧ ∃ (p : Addr) (i : Instr) (u : State), s.pc = p.castSucc ∧ Sys2Proof.decode (s.memRead p).val = .instr i
            ∧ exec i (s.beginCycle p) = .next u ∧ t = u.endCycle) := by
  by_cases h1 : s.st = .running
  · cases h2 : s.inReq with
    | true =>
      rw [step_of_waiting h1 h2] at h
      cases h
      exact .inr (.inl ⟨h1, rfl, rfl⟩)
    | false =>
      rw [step_of_cycle h1 h2] at h
      cases h3 : s.cancelTaken with
      | true =>
        rw [cycle_of_cancel h3] at h
        cases h
        exact .inr (.inr (.inl ⟨h1, rfl, rfl, rfl⟩))
      | false =>
        rcases s.fetchAddr_cases with ⟨p, hp, hf⟩ | ⟨hp, hf⟩
        · rw [cycle_of_fetch h3 hf] at h
          obtain ⟨i, hi, hr⟩ := runFetched_word (s.memRead p) (s.beginCycle p)
          rw [hr] at h
          obtain ⟨u, hu, ht⟩ := finishCycle_next h
          exact .inr (.inr (.inr (.inr ⟨h1, rfl, rfl, p, i, u, hp, hi, hu, ht⟩)))
        · rw [cycle_of_top h3 hf] at h
          cases h
          exact .inr (.inr (.inr (.inl ⟨h1, rfl, rfl, hp, rfl⟩)))
  · rw [step_of_not_running h1] at h
    cases h
    exact .inl ⟨h1, rfl⟩

end Sys2Proof.Machine
end

