-- ==== Sys2Proof/Laws/Safety.lean ====
section
/-! SUPPORT. What the parts of the invariant say, one fact each. -/

namespace Sys2Proof.Machine

/-- The word below PC depends on memory and PC alone. -/
theorem State.wordBelowPc_congr {s t : State} (hm : t.mem = s.mem) (hp : t.pc = s.pc) :
    t.wordBelowPc = s.wordBelowPc := by
  simp [State.wordBelowPc, hm, hp]

/-- Just after a fetch the word below PC is the one fetched. -/
theorem State.wordBelowPc_of_fetch {s t : State} {p : Addr} (hm : t.mem = s.mem) (hp : t.pc = p.succ) :
    t.wordBelowPc = (s.memRead p).val := by
  simp [State.wordBelowPc, State.memRead, hm, hp]

/-- Between cycles nothing is latched. -/
theorem State.iw_of_not_waiting {s : State} (h : s.latchFits = true) (hr : s.inReq = false) : s.iw = none := by
  simpa [State.latchFits, hr] using h

/-- What holds while an INP waits. -/
theorem State.waiting_facts {s : State} (h : s.latchFits = true) (hr : s.inReq = true) :
    s.st = .running ∧ s.iw = some 901 ∧ 0 < s.pc.val ∧ s.wordBelowPc = 901 ∧ s.outq.getLast? = some .prompt := by
  simpa [State.latchFits, hr, and_assoc] using h

/-- A status other than Faulted has no record. -/
theorem State.fr_of_not_faulted {s : State} (h : s.faultRecordFits = true) (hs : s.st ≠ .faulted) : s.fr = none := by
  unfold State.faultRecordFits at h
  split at h <;> simp_all

/-- A running core between cycles has the invariant as soon as memory, events, FR and the latch are right. -/
theorem State.inv_of_running {s : State} (hm : Memory.wf s.mem = true) (ho : s.outq.all OutEvent.wf = true)
    (hf : s.fr = none) (hs : s.st = .running) (hr : s.inReq = false) (hi : s.iw = none) : s.Inv :=
  ⟨hm, ho, by simp [State.faultRecordFits, hf, hs], by simp [State.latchFits, hr, hi], by simp [State.statusFits, hs]⟩

end Sys2Proof.Machine
end

