-- ==== Sys2Proof/Tests/Slice0.lean ====
section
/-! SUPPORT. The model's own tests: the spec's vectors (95_test_vectors.md), one step each, and a witness for the
hypotheses of each statement. Expected values are the spec's. -/

namespace Sys2Proof.Tests

open Sys2Proof Sys2Proof.Machine

/-- A run in progress with these words loaded at 0. -/
def loaded (ws : List Word) : State :=
  { State.reset with mem := Memory.writeWords [] 0 ws, st := .running }

/-- A run in progress about to execute word `w` at address `p`, with this accumulator. -/
def runAt (p : Addr) (w : Word) (acc : Word) : State :=
  { State.reset with mem := Memory.write [] p.val w, pc := p.castSucc, acc := acc, st := .running }

/-- The same with a data word in another cell. -/
def withCell (s : State) (a : Addr) (v : Word) : State := { s with mem := Memory.write s.mem a.val v }

/-- The same with the host's answers given. -/
def withScript (s : State) (rs : List InAnswer) : State := { s with script := rs }

/-- The state a step leaves. -/
def after (s : State) : State :=
  match step s with
  | .next t => t
  | .fault _ => s
  | .refused _ => s

/-- A core inside an INP at address 3, its answers `rs` still to come. -/
def waiting (rs : List InAnswer) : State :=
  withScript (after (runAt 3 901 5)) rs

/-! Well-formedness: an illegal word with the operand of INP or of OUT is no instruction (R75). -/

theorem test_illegal9_with_inp_operand_is_ill_formed : (Instr.illegal9 1).wellFormed = false := by decide
theorem test_illegal9_with_out_operand_is_ill_formed : (Instr.illegal9 2).wellFormed = false := by decide
theorem test_illegal9_edges_are_well_formed :
    (Instr.illegal9 0).wellFormed = true ∧ (Instr.illegal9 3).wellFormed = true
      ∧ (Instr.illegal9 99).wellFormed = true := by decide

/-! Decoding and encoding of words written out from R74: hundreds digit, then the two operand digits. -/

theorem test_decode_hlt : decode 42 = .instr (.hlt 42) ∧ encode (.hlt 42) = 42 := by decide
theorem test_decode_add : decode 111 = .instr (.add 11) ∧ encode (.add 11) = 111 := by decide
theorem test_decode_sub : decode 208 = .instr (.sub 8) ∧ encode (.sub 8) = 208 := by decide
theorem test_decode_sta : decode 311 = .instr (.sta 11) ∧ encode (.sta 11) = 311 := by decide
theorem test_decode_mul : decode 406 = .instr (.mul 6) ∧ encode (.mul 6) = 406 := by decide
theorem test_decode_lda : decode 511 = .instr (.lda 11) ∧ encode (.lda 11) = 511 := by decide
theorem test_decode_bra : decode 603 = .instr (.bra 3) ∧ encode (.bra 3) = 603 := by decide
theorem test_decode_brz : decode 708 = .instr (.brz 8) ∧ encode (.brz 8) = 708 := by decide
theorem test_decode_brp : decode 806 = .instr (.brp 6) ∧ encode (.brp 6) = 806 := by decide
theorem test_decode_inp : decode 901 = .instr (.inp) ∧ encode (.inp) = 901 := by decide
theorem test_decode_out : decode 902 = .instr (.out) ∧ encode (.out) = 902 := by decide
theorem test_decode_illegal9 : decode 903 = .instr (.illegal9 3) ∧ encode (.illegal9 3) = 903 := by decide
theorem test_decode_1023_is_no_instruction : decode 1023 = .invalidOpcode 10 := by decide
theorem test_decodeTableWord : decodeTableWord 16 999 = some (.illegal9 99) ∧ decodeTableWord 16 1000 = none := by
  decide

/-! Signed values: 95_test_vectors.md 2.1. -/

theorem test_decodeSigned_edges :
    decodeSigned 499 = 499 ∧ decodeSigned 500 = -500 ∧ decodeSigned 902 = -98 ∧ decodeSigned 999 = -1 := by decide
theorem test_encodeSigned_edges :
    encodeSigned (-1) = 999 ∧ encodeSigned 1000 = 0 ∧ encodeSigned (-500) = 500 ∧ encodeSigned 249001 = 1
      ∧ encodeSigned (-249500) = 500 := by decide

/-! Arithmetic: 95_test_vectors.md 2.2. -/

theorem test_add_wraps :
    (after (withCell (runAt 0 111 499) 11 1)).acc = 500 ∧ (after (runAt 5 105 105)).acc = 210 := by decide
theorem test_sub_wraps :
    (after (withCell (runAt 0 211 500) 11 1)).acc = 499
      ∧ (after (withCell (runAt 0 211 0) 11 500)).acc = 500 := by decide
theorem test_mul_wraps :
    (after (withCell (runAt 0 411 999) 11 2)).acc = 998
      ∧ (after (withCell (runAt 0 411 500) 11 999)).acc = 500 := by decide
theorem test_add_advances_pc : (after (withCell (runAt 99 111 3) 11 4)).pc = 100 := by decide

/-! Data movement: 95_test_vectors.md 2.3. -/

theorem test_lda_own_word : (after (runAt 5 505 0)).acc = 505 ∧ (after (runAt 5 505 0)).pc = 6 := by decide
theorem test_lda_copies_raw : (after (withCell (runAt 0 520 0) 20 999)).acc = 999 := by decide
theorem test_sta_own_cell :
    (after (runAt 2 302 0)).memRead 2 = 0 ∧ (after (runAt 2 302 0)).pc = 3 ∧ (after (runAt 2 302 0)).st = .running := by
  decide
theorem test_sta_next_cell_is_fetched_next :
    (after (after (runAt 2 303 902))).outq = [.value (-98)] := by decide

/-! Control: 95_test_vectors.md 2.4. -/

theorem test_hlt_ignores_operand : (after (runAt 10 42 7)).st = .halted ∧ (after (runAt 10 42 7)).pc = 11 := by decide
theorem test_hlt_at_99 :
    (after (runAt 99 0 7)).st = .halted ∧ (after (runAt 99 0 7)).pc = 100 ∧ (after (runAt 99 0 7)).fr = none := by decide
theorem test_bra : (after (runAt 7 603 5)).pc = 3 ∧ (after (runAt 7 607 5)).pc = 7 := by decide
theorem test_brz_taken_and_not :
    (after (runAt 4 708 0)).pc = 8 ∧ (after (runAt 4 708 1)).pc = 5 ∧ (after (runAt 4 708 500)).pc = 5 := by decide
theorem test_brp_taken_and_not :
    (after (runAt 3 806 0)).pc = 6 ∧ (after (runAt 3 806 499)).pc = 6 ∧ (after (runAt 3 806 500)).pc = 4
      ∧ (after (runAt 3 806 999)).pc = 4 := by decide

/-! Console: 95_test_vectors.md 2.5. -/

theorem test_inp_accepted_range :
    (after (withScript (runAt 0 901 5) [.ok (-501)])).acc = 499 ∧ (after (withScript (runAt 0 901 5) [.ok (-999)])).acc = 1
      ∧ (after (withScript (runAt 0 901 5) [.ok 999])).acc = 999 := by decide
theorem test_inp_out_of_range_and_fail :
    (after (withScript (runAt 0 901 5) [.ok 1000])).outq = [.prompt, .invalidInputDiag]
      ∧ (after (withScript (runAt 0 901 5) [.ok (-1000)])).acc = 0
      ∧ (after (withScript (runAt 7 901 5) [.fail])).fr = some (.inputReadError 7)
      ∧ (after (withScript (runAt 7 901 5) [.fail])).acc = 5 := by decide
theorem test_out_emits_signed :
    (after (runAt 0 902 902)).outq = [.value (-98)] ∧ (after (runAt 0 902 500)).outq = [.value (-500)] := by decide
theorem test_illegal9_fault :
    (after (runAt 0 903 5)).st = .faulted ∧ (after (runAt 0 903 5)).fr = some (.invalidInstruction 9 0)
      ∧ (after (runAt 0 903 5)).pc = 1 ∧ (after (runAt 0 999 5)).fr = some (.invalidInstruction 9 0) := by decide
theorem test_illegal9_nop :
    (after { runAt 0 900 5 with cfg := ⟨.nop, true⟩ }) = { runAt 0 900 5 with cfg := ⟨.nop, true⟩, pc := 1 } := by decide

/-! Cycle, faults, load, reset: 95_test_vectors.md 2.6. -/

theorem test_pc_100_faults :
    (after { runAt 0 0 5 with pc := 100 }).fr = some (.pcOutOfBounds 100)
      ∧ (after { runAt 0 0 5 with pc := 100 }).pc = 100 := by decide
theorem test_cancel_wins_over_pc_check :
    (after { runAt 0 0 5 with pc := 100, cancel := true }) = { runAt 0 0 5 with pc := 100, cancel := true, st := .stopped } := by
  decide
theorem test_no_cancel_input : (after { runAt 0 603 5 with cancel := true, cfg := ⟨.fault, false⟩ }).pc = 3 := by decide
theorem test_halted_stays : after { runAt 0 603 5 with st := .halted } = { runAt 0 603 5 with st := .halted } := by decide
theorem test_load_answers :
    (load [] State.reset).2 = .ok ∧ (load [0, 999, 1000] State.reset).2 = .configurationError ∧ (load [-1] State.reset).2 = .configurationError
      ∧ (load [0] (loaded [])).2 = .refused := by decide
theorem test_load_of_101_words : (load (List.replicate 101 0) State.reset).2 = .configurationError := by rfl
theorem test_load_writes : (load [901, 0, 999] State.reset).1 = loaded [901, 0, 999] := by decide
theorem test_waiting_keeps_everything : after (waiting []) = waiting [] ∧ (waiting []).inReq = true := by decide
theorem test_late_answer : (after (waiting [.ok 700])).acc = 700 ∧ (after (waiting [.ok 700])).inReq = false := by decide
theorem test_reset_wf : Memory.wf State.reset.mem = true := by decide
theorem test_withFetchWord_runs_first : (after (State.reset.withFetchWord 16 699)).pc = 99 := by decide

/-! Witnesses: states and operands that meet each statement's hypotheses together, at the edges of their ranges. -/

theorem witness_SignedDecodeSplitsAtFiveHundred :
    (500 ≤ (500 : Word).val) ∧ ((499 : Word).val < 500) := by decide
theorem witness_SignedCodecLaws :
    ((-500 : Int) ≤ -500 ∧ (-500 : Int) ≤ 499) ∧ ((-500 : Int) ≤ 499 ∧ (499 : Int) ≤ 499) := by decide
theorem witness_DecoderFollowsOpcodeMap :
    (99 : Word).val = 100 * 0 + (99 : Addr).val ∧ (100 : Word).val = 100 * 1 + (0 : Addr).val
      ∧ (299 : Word).val = 100 * 2 + (99 : Addr).val ∧ (300 : Word).val = 100 * 3 + (0 : Addr).val
      ∧ (499 : Word).val = 100 * 4 + (99 : Addr).val ∧ (500 : Word).val = 100 * 5 + (0 : Addr).val
      ∧ (699 : Word).val = 100 * 6 + (99 : Addr).val ∧ (700 : Word).val = 100 * 7 + (0 : Addr).val
      ∧ (899 : Word).val = 100 * 8 + (99 : Addr).val ∧ (901 : Word).val = 100 * 9 + (1 : Addr).val
      ∧ (902 : Word).val = 100 * 9 + (2 : Addr).val ∧ (900 : Word).val = 100 * 9 + (0 : Addr).val
      ∧ (0 : Addr).val ≠ 1 ∧ (0 : Addr).val ≠ 2 := by decide
theorem witness_DecodeOfEncodeGivesInstruction :
    (Instr.illegal9 3).wellFormed = true ∧ (Instr.hlt 99).wellFormed = true := by decide
theorem witness_EncodeOfDecodeGivesWord :
    (Instr.illegal9 99).wellFormed = true ∧ encode (.illegal9 99) = 999 := by decide
theorem witness_ValuesAboveWordsAreInvalid :
    1000 ≤ 1000 ∧ (1000 : Int) ∈ [(5 : Int), 1000] ∧ (1000 : Int) ≤ 1000 := by decide
theorem witness_instructions_fetched :
    (runAt 0 111 499).FetchesAt 0 (100 + (11 : Addr).val) ∧ (runAt 99 299 0).FetchesAt 99 (200 + (99 : Addr).val)
      ∧ (runAt 5 400 0).FetchesAt 5 (400 + (0 : Addr).val) ∧ (runAt 5 505 0).FetchesAt 5 (500 + (5 : Addr).val)
      ∧ (runAt 2 303 902).FetchesAt 2 (300 + (3 : Addr).val) ∧ (runAt 99 99 0).FetchesAt 99 (99 : Addr).val
      ∧ (runAt 7 607 0).FetchesAt 7 (600 + (7 : Addr).val) ∧ (runAt 4 708 0).FetchesAt 4 (700 + (8 : Addr).val)
      ∧ (runAt 3 806 500).FetchesAt 3 (800 + (6 : Addr).val) ∧ (runAt 0 901 5).FetchesAt 0 901
      ∧ (runAt 0 902 5).FetchesAt 0 902 ∧ (runAt 0 999 5).FetchesAt 0 (900 + (99 : Addr).val) := by decide
theorem witness_StaCopiesAccumulatorToCell :
    Memory.wf (runAt 2 302 7).mem = true ∧ (runAt 2 302 7).FetchesAt 2 (300 + (2 : Addr).val) := by decide
theorem witness_sta_other_instruction :
    (∀ b, Instr.hlt 0 ≠ .sta b) ∧ exec (.hlt 0) (runAt 2 0 7) = .next (runAt 2 0 7).halt := ⟨by decide, rfl⟩
theorem witness_branch_conditions :
    decodeSigned (runAt 4 708 0).acc = 0 ∧ decodeSigned (runAt 4 708 500).acc ≠ 0
      ∧ 0 ≤ decodeSigned (runAt 3 806 499).acc ∧ decodeSigned (runAt 3 806 500).acc < 0 := by decide
theorem witness_InpActsOnTheAnswer :
    (withScript (runAt 0 901 5) [.fail]).script = .fail :: [] ∧ (withScript (runAt 0 901 5) [.ok 1000, .fail]).script = .ok 1000 :: [.fail]
      ∧ (999 : Int) < 1000 ∧ (-1000 : Int) < -999
      ∧ (withScript (runAt 0 901 5) [.ok (-999)]).FetchesAt 0 901 ∧ (-999 : Int) ≤ -999 ∧ (-999 : Int) ≤ 999 := by decide
theorem witness_InpWaitsForTheHost :
    (runAt 0 901 5).script = [] ∧ (waiting []).script = [] ∧ (waiting []).st = .running ∧ (waiting []).inReq = true := by decide
theorem witness_InpAnswerDelayIsInvisible :
    (runAt 99 901 5).Ready ∧ (runAt 99 901 5).script = [] ∧ (runAt 99 901 5).pc = (99 : Addr).castSucc
      ∧ ((runAt 99 901 5).memRead 99).val = 901 := by decide
theorem witness_IllegalNineFaultsOrDoesNothing :
    (0 : Addr).val ≠ 1 ∧ (3 : Addr).val ≠ 2 ∧ (runAt 0 903 5).cfg.ioOtherOperand = .fault ∧ (runAt 0 903 5).FetchesAt 0 903
      ∧ ({ runAt 0 903 5 with cfg := ⟨.nop, true⟩ } : State).cfg.ioOtherOperand = .nop
      ∧ ({ runAt 0 903 5 with cfg := ⟨.nop, true⟩ } : State).FetchesAt 0 903 := by decide
theorem witness_StepRunsDecodedInstruction :
    (runAt 99 902 5).Ready ∧ (runAt 99 902 5).pc = (99 : Addr).castSucc ∧ decode ((runAt 99 902 5).memRead 99).val = .instr .out := by decide
theorem witness_NoCycleUnlessRunning :
    State.reset.st ≠ .running := by decide
theorem witness_CancelIsSampledAtCycleStart :
    (({ runAt 0 902 5 with cancel := true } : State).st = .running ∧ ({ runAt 0 902 5 with cancel := true } : State).inReq = false
        ∧ ({ runAt 0 902 5 with cancel := true } : State).cfg.cancelPresent = true)
      ∧ (waiting [.ok 1]).inReq = true
      ∧ ({ runAt 0 902 5 with cfg := ⟨.fault, false⟩ } : State).cfg.cancelPresent = false := by decide
theorem witness_PcCheckFailsExactlyAtHundred :
    ({ runAt 0 0 5 with pc := 100 } : State).Ready ∧ ({ runAt 0 0 5 with pc := 100 } : State).pc.val = 100
      ∧ (runAt 99 0 5).Ready ∧ (runAt 99 0 5).pc.val = 99 ∧ ((runAt 99 0 5).memRead 99).val = 0 ∧ (runAt 99 0 5).fr = none := by decide
theorem witness_FaultsArePrecise :
    (({ runAt 0 0 5 with pc := 100 } : State).Inv ∧ (after { runAt 0 0 5 with pc := 100 }).st = .faulted)
      ∧ ((runAt 99 903 5).Inv ∧ (runAt 99 903 5).st = .running ∧ (after (runAt 99 903 5)).st = .faulted)
      ∧ ((withScript (runAt 0 901 5) [.fail]).Inv ∧ (after (withScript (runAt 0 901 5) [.fail])).st = .faulted)
      ∧ (runAt 99 903 5).inReq = false ∧ ({ runAt 0 0 5 with pc := 100 } : State).inReq = false
      ∧ (withScript (runAt 0 901 5) [.fail]).inReq = false := by decide
theorem witness_LateInputFaultIsPrecise :
    (waiting [.fail]).Inv ∧ (waiting [.fail]).inReq = true ∧ (after (waiting [.fail])).st = .faulted := by decide
theorem witness_PcAfterCycle :
    (runAt 4 708 0).Ready ∧ ((runAt 4 708 0).memRead 4).val / 100 = 7 ∧ decodeSigned (runAt 4 708 0).acc = 0
      ∧ (runAt 99 902 0).Ready ∧ ((runAt 99 902 0).memRead 99).val / 100 = 9 ∧ (after (runAt 99 902 0)).st = .running
      ∧ (after (runAt 99 902 0)).inReq = false ∧ (after (runAt 99 902 0)).pc.val = 100 := by decide
theorem witness_OnlyStaChangesMemoryInAStep :
    Memory.wf (runAt 2 303 7).mem = true ∧ (after (runAt 2 303 7)).memRead 3 ≠ (runAt 2 303 7).memRead 3 := by decide
theorem witness_exec_answers_next :
    exec (.bra 3) (runAt 0 603 5) = .next ((runAt 0 603 5).setPc 3) ∧ exec .out (runAt 0 902 5) = .next ((runAt 0 902 5).emit (.value 5))
      ∧ exec .inp (withScript (runAt 0 901 5) [.ok 1000]) = .next { runAt 0 901 0 with outq := [.prompt, .invalidInputDiag] } := ⟨rfl, rfl, rfl⟩
theorem witness_AccumulatorReadersAndWriters :
    (Instr.bra 3).mnemonic ∉ ["ADD", "SUB", "MUL", "LDA", "INP"] ∧ (Instr.bra 3).mnemonic ∈ ["HLT", "BRA", "INP", "LDA", "ILLEGAL_9"]
      ∧ (withScript (runAt 0 901 5) [.ok 3]).script = .ok 3 :: [] := by decide
theorem witness_OutputStreamOnlyGrows :
    Sys2Proof.core.run 1 (runAt 0 902 7) = .next (after (runAt 0 902 7)) := rfl
theorem witness_StatusChangesOnlyByHltFaultCancelLoad :
    (after (runAt 0 0 5)).st ≠ (runAt 0 0 5).st ∧ (after { runAt 0 603 5 with cancel := true }).st ≠ (runAt 0 603 5).st
      ∧ (after (runAt 0 900 5)).st ≠ (runAt 0 900 5).st
      ∧ HostCommand.load [902] ≠ .step ∧ HostCommand.load [902] ≠ .reset
      ∧ (applyCommand (.load [902]) State.reset).st ≠ State.reset.st := by decide
theorem witness_ResetAndLoadedState :
    load [902] (State.resetWith Config.default) = (loaded [902], .ok) := by decide
theorem witness_LoadAcceptsOrRefuses :
    State.reset.Inv ∧ State.reset.st = .idle ∧ (List.replicate 100 (999 : Int)).length ≤ 100 ∧ (loaded []).Inv
      ∧ (loaded []).st ≠ .idle ∧ 100 < (List.replicate 101 (0 : Int)).length ∧ ((999 : Int) < 1000) ∧ ((-1 : Int) < 0) := by decide
theorem witness_ResetIsTheOnlyWayOut :
    ({ runAt 0 0 5 with st := .stopped } : State).st.terminal = true
      ∧ (applyCommand .reset { runAt 0 0 5 with st := .stopped }).st ≠ .stopped := by decide
theorem witness_TerminalOutcomeIsFinal :
    (after (runAt 0 0 5)).st.terminal = true ∧ HostCommand.run 3 ≠ .reset := by decide
theorem witness_StoredWordIsFetchedByNextCycle :
    Memory.wf (runAt 2 303 902).mem = true ∧ (runAt 2 303 902).FetchesAt 2 (300 + (3 : Addr).val) ∧ (3 : Addr).val = (2 : Addr).val + 1
      ∧ decode (runAt 2 303 902).acc.val = .instr .out ∧ (runAt 99 399 0).FetchesAt 99 (300 + (99 : Addr).val) := by decide
theorem witness_LdaReadsTheLatestStore :
    Memory.wf (runAt 2 303 902).mem = true ∧ exec (.sta 3) (runAt 2 303 902) = .next ((runAt 2 303 902).memWrite 3 902) := ⟨rfl, rfl⟩
theorem witness_CanonicalMemoriesAreEqualData :
    Memory.wf [(3, 5), (99, 1)] = true ∧ Memory.wf (Memory.write [(3, 5)] 99 1) = true := by decide
theorem witness_StepKeepsInvariant :
    (waiting [.ok 5]).Inv ∧ step (waiting [.ok 5]) = .next (after (waiting [.ok 5])) := ⟨by decide, rfl⟩
theorem witness_HostCommandsKeepInvariant :
    (waiting []).Inv ∧ Reachable (State.resetWith Config.default) := ⟨by decide, .reset _⟩
theorem witness_SelfBranchLoopsForever :
    (runAt 7 607 5).FetchesAt 7 (600 + (7 : Addr).val) ∧ (runAt 7 607 5).iw = none ∧ (runAt 0 600 5).FetchesAt 0 600 := by decide
theorem witness_HostStepAndRunAnswer :
    (after (runAt 0 0 5)).st = .halted ∧ (after (runAt 0 900 5)).st = .faulted ∧ (runAt 0 902 5).inReq = false
      ∧ hostRun 5 (runAt 0 902 7) = (after (after (runAt 0 902 7)), .halted) := by decide
theorem witness_OnlyInpTakesAnAnswer :
    step (waiting [.ok 5]) = .next (after (waiting [.ok 5])) ∧ (after (waiting [.ok 5])).script = [] := ⟨rfl, by decide⟩
theorem witness_ParametersAndCancelInputAreKept :
    ∀ b, HostCommand.reset ≠ .cancel b := by decide
theorem witness_ParametersMatterOnlyForIllegalWords :
    (∀ a, Instr.out ≠ .illegal9 a) ∧ exec .out (runAt 0 902 5) = .next ((runAt 0 902 5).emit (.value 5)) := ⟨by decide, rfl⟩

end Sys2Proof.Tests
end

/-! The value types and the state's bookkeeping (spec R21 to R23, R31, R33): the laws of decode and encode, the state
after reset and after a load, the numeric codes. -/

namespace Sys2Proof.Machine

/-! ### The signed codec -/

theorem decodeSigned_mem_range (w : Word) : -500 ≤ decodeSigned w ∧ decodeSigned w ≤ 499 := by
  have hw := w.isLt
  rcases decodeSigned_cases w with ⟨h, hd⟩ | ⟨h, hd⟩ <;> omega

/-- A Word and what it means are congruent modulo 1000. -/
theorem decodeSigned_emod (w : Word) : decodeSigned w % 1000 = (w.val : Int) := by
  have hw := w.isLt
  rcases decodeSigned_cases w with ⟨h, hd⟩ | ⟨h, hd⟩ <;> omega

theorem decodeSigned_eq_zero_iff (w : Word) : decodeSigned w = 0 ↔ w.val = 0 := by
  have hw := w.isLt
  rcases decodeSigned_cases w with ⟨h, hd⟩ | ⟨h, hd⟩ <;> omega

theorem decodeSigned_nonneg_iff (w : Word) : 0 ≤ decodeSigned w ↔ w.val ≤ 499 := by
  have hw := w.isLt
  rcases decodeSigned_cases w with ⟨h, hd⟩ | ⟨h, hd⟩ <;> omega

@[simp] theorem encodeSigned_decodeSigned (w : Word) : encodeSigned (decodeSigned w) = w := by
  have h : ((encodeSigned (decodeSigned w)).val : Int) = w.val :=
    (encodeSigned_val _).trans (decodeSigned_emod w)
  exact Fin.ext (by exact_mod_cast h)

theorem decodeSigned_encodeSigned_emod (x : Int) : decodeSigned (encodeSigned x) % 1000 = x % 1000 :=
  (decodeSigned_emod _).trans (encodeSigned_val x)

/-- The decoded residue is the one signed value congruent to `x`: encode sees the residue alone, and a signed value is
recovered from its own residue because the range is 1000 values long. -/
theorem eq_decodeSigned_encodeSigned_iff (x y : Int) :
    (-500 ≤ y ∧ y ≤ 499 ∧ y % 1000 = x % 1000) ↔ y = decodeSigned (encodeSigned x) := by
  have hmod := decodeSigned_encodeSigned_emod x
  obtain ⟨hlo, hhi⟩ := decodeSigned_mem_range (encodeSigned x)
  constructor
  · rintro ⟨hy1, hy2, hy⟩
    omega
  · rintro rfl
    exact ⟨hlo, hhi, hmod⟩

theorem decodeSigned_encodeSigned {x : Int} (h1 : -500 ≤ x) (h2 : x ≤ 499) : decodeSigned (encodeSigned x) = x :=
  ((eq_decodeSigned_encodeSigned_iff x x).mp ⟨h1, h2, rfl⟩).symm

/-- Settles O3: each law is one lemma on the codec; the uniqueness of (d) carries (a). -/
theorem signedCodecLaws : Obligations.SignedCodecLaws :=
  ⟨fun _ => decodeSigned_encodeSigned, encodeSigned_decodeSigned, decodeSigned_emod,
    eq_decodeSigned_encodeSigned_iff, fun w => ⟨decodeSigned_eq_zero_iff w, decodeSigned_nonneg_iff w⟩⟩

/-- Settles O1: the two arms of decode, and its range. -/
theorem signedDecodeSplitsAtFiveHundred : Obligations.SignedDecodeSplitsAtFiveHundred :=
  fun w => ⟨decodeSigned_of_ge, decodeSigned_of_lt, decodeSigned_mem_range w⟩

/-- Settles O2: the quotient is that of the Euclidean division by 1000. -/
theorem signedEncodeIsEuclideanResidue : Obligations.SignedEncodeIsEuclideanResidue := by
  intro x
  refine ⟨x / 1000, ?_, Nat.le_of_lt_succ (encodeSigned x).isLt⟩
  rw [encodeSigned_val]
  exact (Int.mul_ediv_add_emod x 1000).symm

/-! ### Reset and load -/

/-- An admitted value is a Word of that value (R58). -/
theorem toWord_eq_some {x : Int} {w : Word} (h : toWord x = some w) : (w.val : Int) = x := by
  unfold toWord at h
  split at h
  · next hx =>
    cases h
    exact Int.toNat_of_nonneg hx.1
  · cases h

theorem admitWords_cons_eq_some {x : Int} {xs : List Int} {vs : List Word} (h : admitWords (x :: xs) = some vs) :
    ∃ w ws, toWord x = some w ∧ admitWords xs = some ws ∧ vs = w :: ws := by
  unfold admitWords at h
  split at h
  · next w ws hw hws =>
    cases h
    exact ⟨w, ws, hw, hws, rfl⟩
  · cases h

/-- Admitting a program changes no value of it. -/
theorem admitWords_map_val {xs : List Int} {ws : List Word} (h : admitWords xs = some ws) :
    ws.map (fun w => (w.val : Int)) = xs := by
  induction xs generalizing ws with
  | nil => cases h; rfl
  | cons x xs ih =>
    obtain ⟨v, vs, hv, hvs, rfl⟩ := admitWords_cons_eq_some h
    rw [List.map_cons, toWord_eq_some hv, ih hvs]

/-- What a load answered `ok` found and did (R58). -/
theorem load_eq_ok {xs : List Int} {s t : State} (h : load xs s = (t, .ok)) :
    s.st = .idle ∧ xs.length ≤ 100 ∧ ∃ ws, ws.map (fun w : Word => (w.val : Int)) = xs
      ∧ t = { s with mem := Memory.writeWords s.mem 0 ws, st := .running } := by
  unfold load at h
  split at h
  case h_1 hst =>
    split at h
    · cases h
    · next hlen =>
      split at h
      · cases h
      · next ws hws =>
        cases h
        exact ⟨hst, Nat.le_of_not_lt hlen, ws, admitWords_map_val hws, rfl⟩
  all_goals cases h

@[simp] theorem State.memRead_resetWith (c : Config) (b : Addr) : (State.resetWith c).memRead b = 0 := rfl

/-- A program copied into empty memory: cell `b` holds the program's `b`-th value, or 0 past its end. -/
theorem Memory.read_writeWords_nil (ws : List Word) (b : Nat) (h : ws.length ≤ 100) :
    ((Memory.read (Memory.writeWords [] 0 ws) b).val : Int) = ((ws.map (fun w => (w.val : Int)))[b]?).getD 0 := by
  have hread := Memory.read_writeWords (m := []) ws 0 b rfl (by omega)
  rw [Nat.zero_add] at hread
  rw [hread, List.getElem?_map]
  cases ws[b]? <;> rfl

/-- Settles O39: reset is read off its definition; a load answered `ok` wrote the program into empty memory and started
the run, and nothing else. -/
theorem resetAndLoadedState : Obligations.ResetAndLoadedState := by
  intro c xs t
  refine ⟨fun b => congrArg Fin.val (State.memRead_resetWith c b), rfl, rfl, rfl, rfl, rfl, rfl, fun h => ?_⟩
  obtain ⟨-, hlen, ws, rfl, rfl⟩ := load_eq_ok h
  rw [List.length_map] at hlen
  exact ⟨fun b => Memory.read_writeWords_nil ws b.val hlen, rfl, rfl, rfl, rfl, rfl, rfl⟩

/-! ### The numeric codes -/

/-- Settles O52: each clause is an equation of `Status.code`, `FaultRecord.code` or `statusPort`. -/
theorem statusAndFaultCodes : Obligations.StatusAndFaultCodes :=
  ⟨rfl, rfl, rfl, rfl, rfl, fun _ => rfl, fun _ _ => rfl, fun _ => rfl, fun _ => rfl⟩

end Sys2Proof.Machine

/-! Memory and the load transaction (spec R58, R155): the answer of a load in each of its cases, and what it leaves. -/

namespace Sys2Proof.Machine

theorem toWord_eq_none_iff (x : Int) : toWord x = none ↔ x < 0 ∨ 999 < x := by
  unfold toWord
  split
  · next h =>
    simp only [reduceCtorEq, false_iff]
    omega
  · next h =>
    simp only [true_iff]
    omega

theorem admitWords_cons_eq_none_iff (x : Int) (xs : List Int) :
    admitWords (x :: xs) = none ↔ toWord x = none ∨ admitWords xs = none := by
  rw [admitWords]
  cases toWord x <;> cases admitWords xs <;> simp

/-- A program is not admitted exactly when one of its values is no Word (R58). -/
theorem admitWords_eq_none_iff (xs : List Int) : admitWords xs = none ↔ ∃ x ∈ xs, x < 0 ∨ 999 < x := by
  induction xs with
  | nil => simp [admitWords]
  | cons x xs ih => rw [admitWords_cons_eq_none_iff, toWord_eq_none_iff, ih, List.exists_mem_cons_iff]

theorem load_of_not_idle {s : State} (h : s.st ≠ .idle) (xs : List Int) : load xs s = (s, .refused) := by
  unfold load
  split
  case h_1 hst => exact absurd hst h
  all_goals rfl

theorem load_of_too_long {s : State} {xs : List Int} (hst : s.st = .idle) (h : 100 < xs.length) :
    load xs s = (s, .configurationError) := by
  simp [load, hst, h]

theorem load_of_not_admitted {s : State} {xs : List Int} (hst : s.st = .idle) (h : admitWords xs = none) :
    load xs s = (s, .configurationError) := by
  simp [load, hst, h]

theorem load_of_admitted {s : State} {xs : List Int} {ws : List Word} (hst : s.st = .idle) (hlen : xs.length ≤ 100)
    (h : admitWords xs = some ws) :
    load xs s = ({ s with mem := Memory.writeWords s.mem 0 ws, st := .running }, .ok) := by
  simp [load, hst, Nat.not_lt.mpr hlen, h]

/-- What the invariant says of an idle core: it is as reset leaves it (R31, R91). -/
theorem State.idle_facts {s : State} (h : s.statusFits = true) (hst : s.st = .idle) :
    s.mem = [] ∧ s.acc = 0 ∧ s.pc = 0 ∧ s.outq = [] := by
  simpa [State.statusFits, hst, and_assoc] using h

/-- Settles O40: the cases of `load`; an admitted program goes into the empty memory that the invariant gives an idle
core. -/
theorem loadAcceptsOrRefuses : Obligations.LoadAcceptsOrRefuses := by
  intro xs s hinv
  obtain ⟨-, -, -, -, hstatus⟩ := hinv
  refine ⟨fun hst => load_of_not_idle hst xs, fun hst hbad => ?_, fun hst hlen hrange => ?_⟩
  · rcases hbad with hlong | hout
    · exact load_of_too_long hst hlong
    · exact load_of_not_admitted hst ((admitWords_eq_none_iff xs).mpr hout)
  · obtain ⟨hmem, hacc, hpc, -⟩ := State.idle_facts hstatus hst
    have hadmit : admitWords xs ≠ none := by
      intro hnone
      obtain ⟨x, hx, hout⟩ := (admitWords_eq_none_iff xs).mp hnone
      have hin := hrange x hx
      omega
    obtain ⟨ws, hws⟩ := Option.ne_none_iff_exists'.mp hadmit
    refine ⟨_, load_of_admitted hst hlen hws, fun b => ?_, rfl, congrArg Fin.val hacc, congrArg Fin.val hpc, rfl,
      ⟨rfl, rfl, rfl⟩, rfl, rfl, rfl⟩
    obtain rfl := admitWords_map_val hws
    rw [List.length_map] at hlen
    rw [State.memRead, hmem]
    exact Memory.read_writeWords_nil ws b.val hlen

end Sys2Proof.Machine

/-! The decoder and the illegal words (spec R74 to R76, R130): the instruction of a value given by its digits, a value
that is no Word, and the cycle that fetches an illegal opcode-9 word. -/

namespace Sys2Proof

theorem decode_of_opcode_nine {w : Nat} (h : opcodeOf w = 9) : decode w = .instr (decodeIo (operandOf w)) := by
  simp only [decode, h]

theorem Instr.wellFormed_illegal9_iff (a : Addr) :
    (Instr.illegal9 a).wellFormed = true ↔ a.val ≠ 1 ∧ a.val ≠ 2 := by
  simp [Instr.wellFormed]

theorem decodeIo_of_illegal {a : Addr} (h1 : a.val ≠ 1) (h2 : a.val ≠ 2) : decodeIo a = .illegal9 a := by
  rcases decodeIo_cases a with ⟨h, -⟩ | ⟨h, -⟩ | ⟨-, -, h⟩
  · exact absurd h h1
  · exact absurd h h2
  · exact h

/-- The opcode map (R74), read from the instruction: a value with the digits of a well-formed instruction decodes to
it. -/
theorem decode_of_digits {w : Nat} {i : Instr} (hi : i.wellFormed = true)
    (hw : w = 100 * i.opcode.val + i.operand.val) : decode w = .instr i := by
  obtain ⟨hop, ha⟩ := decode_of_fields hw
  cases i with
  | hlt a | add a | sub a | sta a | mul a | lda a | bra a | brz a | brp a =>
    simp only [Instr.opcode, Instr.operand] at hop ha
    simp [decode, hop, ha]
  | inp => rw [decode_of_opcode_nine hop, ha]; rfl
  | out => rw [decode_of_opcode_nine hop, ha]; rfl
  | illegal9 a =>
    obtain ⟨h1, h2⟩ := (Instr.wellFormed_illegal9_iff a).mp hi
    rw [decode_of_opcode_nine hop, ha]
    exact congrArg _ (decodeIo_of_illegal h1 h2)

/-- Settles O7: each row is `decode_of_digits` at the row's instruction. -/
theorem decoderFollowsOpcodeMap : Obligations.DecoderFollowsOpcodeMap := by
  intro op a w hw
  have hlt := w.isLt
  refine ⟨?_, ?_, ?_, ?_, ?_, ?_, ?_, ?_, ?_, ?_, ?_, ?_, by omega⟩
  -- opcodes 0 to 8: the operand is free
  iterate 9
    · rintro rfl
      exact decode_of_digits rfl hw
  · rintro rfl h1
    exact decode_of_digits rfl (by rw [hw, h1]; rfl)
  · rintro rfl h2
    exact decode_of_digits rfl (by rw [hw, h2]; rfl)
  · rintro rfl h1 h2
    exact decode_of_digits ((Instr.wellFormed_illegal9_iff a).mpr ⟨h1, h2⟩) hw

/-- The last arm of the decoder (R76): a value of 1000 or more has its own opcode. -/
theorem decode_of_ge_wordMod {w : Nat} (h : 1000 ≤ w) : decode w = .invalidOpcode (w / 100) := by
  have hop : 10 ≤ opcodeOf w := by simp only [opcodeOf, Config.opDiv]; omega
  unfold decode
  split
  case h_11 => rfl
  all_goals omega

end Sys2Proof

namespace Sys2Proof.Machine

theorem runFetched_of_invalidOpcode {w op : Nat} (h : Sys2Proof.decode w = .invalidOpcode op) (s : State) :
    runFetched w s = .next (s.raiseFault (.invalidInstruction op s.executingAddress)).endCycle := by
  unfold runFetched
  rw [h]

/-- A load with a value above the Words is not accepted, in any status, and changes nothing (R58, R76). -/
theorem load_of_mem_ge {xs : List Int} {x : Int} (hx : x ∈ xs) (h : 1000 ≤ x) (s : State) :
    (load xs s).2 ≠ .ok ∧ (load xs s).1 = s := by
  by_cases hst : s.st = .idle
  · have hnone : admitWords xs = none := (admitWords_eq_none_iff xs).mpr ⟨x, hx, by omega⟩
    simp [load_of_not_admitted hst hnone]
  · simp [load_of_not_idle hst]

/-- Settles O10: the decoder's last arm and the fault its dispatch raises, the load's refusal, and that every Word is
dispatched to an instruction. -/
theorem valuesAboveWordsAreInvalid : Obligations.ValuesAboveWordsAreInvalid := by
  refine ⟨fun w s hw => ?_, fun xs x s hx h => load_of_mem_ge hx h s, fun w => ?_⟩
  · have hdecode := decode_of_ge_wordMod hw
    exact ⟨hdecode, _, runFetched_of_invalidOpcode hdecode s, rfl, rfl⟩
  · obtain ⟨i, hi, -⟩ := runFetched_word w State.reset
    exact ⟨i, hi⟩

/-- A step that fetches a value of an instruction runs that instruction, between the begin and the end of its cycle. -/
theorem step_of_fetchesAt {s : State} {p : Addr} {w : Nat} {i : Instr} (h : s.FetchesAt p w)
    (hi : Sys2Proof.decode w = .instr i) : step s = finishCycle (exec i (s.beginCycle p)) := by
  obtain ⟨⟨hst, hreq, hcancel⟩, hpc, rfl⟩ := h
  rw [step_of_cycle hst hreq, cycle_of_fetch hcancel (State.fetchAddr_of_pc hpc), runFetched_of_instr hi]

/-- `step_of_fetchesAt` where the instruction answers a next state. -/
theorem step_next_of_fetchesAt {s u : State} {p : Addr} {w : Nat} {i : Instr} (h : s.FetchesAt p w)
    (hi : Sys2Proof.decode w = .instr i) (hu : exec i (s.beginCycle p) = .next u) : step s = .next u.endCycle := by
  rw [step_of_fetchesAt h hi, hu]
  rfl

theorem State.endCycle_iw_of_not_waiting {s : State} (h : s.inReq = false) : s.endCycle.iw = none := by
  simp [h]

/-- The executing instruction's address is the one it was fetched from (R94). -/
@[simp] theorem State.executingAddress_beginCycle (s : State) (p : Addr) :
    (s.beginCycle p).executingAddress = p.val := by
  simp [State.executingAddress]

/-- A cycle of no effect leaves the state but for the incremented PC. -/
theorem State.endCycle_beginCycle {s : State} (h : s.inReq = false) (p : Addr) :
    (s.beginCycle p).endCycle = { s with pc := p.succ, iw := none } := by
  simp [State.endCycle, State.beginCycle, h]

/-- Settles O26: `exec` under each value of the parameter, and the fetching cycle around it. -/
theorem illegalNineFaultsOrDoesNothing : Obligations.IllegalNineFaultsOrDoesNothing := by
  refine ⟨rfl, fun a h1 h2 => ?_⟩
  have hdecode : Sys2Proof.decode (900 + a.val) = .instr (.illegal9 a) :=
    decode_of_digits ((Instr.wellFormed_illegal9_iff a).mpr ⟨h1, h2⟩) rfl
  refine ⟨hdecode, fun s => ⟨fun hcfg => ⟨?_, fun p hfetch => ?_⟩, fun hcfg => ⟨?_, fun p hfetch => ?_⟩⟩⟩
  · exact ⟨_, exec_illegal9_fault hcfg a, rfl, rfl, rfl, rfl, fun _ => rfl, ⟨rfl, rfl, rfl⟩, rfl, rfl, rfl⟩
  · have ⟨⟨_, hreq, _⟩, _⟩ := hfetch
    have hexec := exec_illegal9_fault (s := s.beginCycle p) hcfg a
    rw [State.executingAddress_beginCycle] at hexec
    exact ⟨_, step_next_of_fetchesAt hfetch hdecode hexec, rfl, rfl, rfl, rfl, fun _ => rfl, ⟨rfl, rfl, rfl⟩,
      State.endCycle_iw_of_not_waiting hreq, rfl, rfl⟩
  · exact exec_illegal9_nop hcfg a
  · have ⟨⟨_, hreq, _⟩, _⟩ := hfetch
    rw [← State.endCycle_beginCycle hreq p]
    exact step_next_of_fetchesAt hfetch hdecode (exec_illegal9_nop (s := s.beginCycle p) hcfg a)

end Sys2Proof.Machine

/-! The cycle (spec R90 to R98): what instructions leave unchanged around the cycle's own tests, when cancel is sampled,
the PC check, and PC after a cycle. -/

namespace Sys2Proof.Machine

/-! ### What a request and an instruction leave unchanged -/

/-- An answer acts on the accumulator, the events and the status alone (R133). -/
theorem acceptAnswer_frame (r : InAnswer) (s : State) :
    (acceptAnswer r s).mem = s.mem ∧ (acceptAnswer r s).pc = s.pc ∧ SameRest s (acceptAnswer r s) := by
  rcases acceptAnswer_cases r s with ⟨-, e⟩ | ⟨_, -, -, e⟩ | ⟨_, -, -, -, e⟩ <;>
    exact e ▸ ⟨rfl, rfl, rfl, rfl, rfl⟩

theorem acceptAnswer_fr_cases (r : InAnswer) (s : State) :
    (acceptAnswer r s).fr = s.fr ∨ (acceptAnswer r s).fr = some (.inputReadError s.executingAddress) := by
  rcases acceptAnswer_cases r s with ⟨-, e⟩ | ⟨_, -, -, e⟩ | ⟨_, -, -, -, e⟩
  · exact .inr (e ▸ rfl)
  · exact .inl (e ▸ rfl)
  · exact .inl (e ▸ rfl)

/-- Everything an outstanding request can do: wait, or take the first answer. -/
theorem serveInput_cases (s : State) :
    (s.script = [] ∧ serveInput s = s)
      ∨ ∃ r rest, s.script = r :: rest ∧ serveInput s = acceptAnswer r (takeAnswer rest s) := by
  cases h : s.script with
  | nil => exact .inl ⟨rfl, serveInput_nil h⟩
  | cons r rest => exact .inr ⟨r, rest, rfl, serveInput_cons h⟩

theorem serveInput_frame (s : State) :
    (serveInput s).mem = s.mem ∧ (serveInput s).pc = s.pc ∧ SameRest s (serveInput s) := by
  rcases serveInput_cases s with ⟨-, e⟩ | ⟨r, rest, -, e⟩ <;> rw [e]
  · exact ⟨rfl, rfl, rfl, rfl, rfl⟩
  · exact acceptAnswer_frame r (takeAnswer rest s)

theorem serveInput_fr_cases (s : State) :
    (serveInput s).fr = s.fr ∨ (serveInput s).fr = some (.inputReadError s.executingAddress) := by
  rcases serveInput_cases s with ⟨-, e⟩ | ⟨r, rest, -, e⟩ <;> rw [e]
  · exact .inl rfl
  · exact acceptAnswer_fr_cases r (takeAnswer rest s)

/-- No instruction touches the latched word, the cancel input or the parameters. -/
theorem exec_sameRest {i : Instr} {s t : State} (h : exec i s = .next t) : SameRest s t := by
  rcases exec_core_cases h with ⟨_, -, rfl⟩ | ⟨_, -, rfl⟩ | ⟨_, -, rfl⟩ | ⟨-, rfl | rfl⟩ | ⟨-, rfl⟩ | ⟨-, rfl⟩
    | ⟨_, -, -, rfl⟩ | ⟨_, -, -, rfl⟩
  -- INP
  case inr.inr.inr.inr.inl =>
    obtain ⟨-, -, hrest⟩ := serveInput_frame (requestInput (s.emit .prompt))
    exact hrest
  all_goals exact ⟨rfl, rfl, rfl⟩

/-- The records an instruction can raise: those of an illegal word and of a failed INP (R152, R153). -/
theorem exec_fr_cases {i : Instr} {s t : State} (h : exec i s = .next t) :
    t.fr = s.fr ∨ t.fr = some (.invalidInstruction 9 s.executingAddress)
      ∨ t.fr = some (.inputReadError s.executingAddress) := by
  rcases exec_core_cases h with ⟨_, -, rfl⟩ | ⟨_, -, rfl⟩ | ⟨_, -, rfl⟩ | ⟨-, rfl | rfl⟩ | ⟨-, rfl⟩ | ⟨-, rfl⟩
    | ⟨_, -, -, rfl⟩ | ⟨_, -, -, rfl⟩
  -- INP
  case inr.inr.inr.inr.inl =>
    exact (serveInput_fr_cases (requestInput (s.emit .prompt))).imp_right .inr
  -- an illegal word under the parameter value Fault
  case inr.inr.inr.inr.inr.inr.inl => exact .inr (.inl rfl)
  all_goals exact .inl rfl

/-! ### A core that is not Running, and the cancel input -/

/-- Settles O28: a step of such a core answers the same state, so every run does. -/
theorem noCycleUnlessRunning : Obligations.NoCycleUnlessRunning :=
  fun _ hst => run_of_step_self (step_of_not_running hst)

theorem State.cancelTaken_iff (s : State) : s.cancelTaken = true ↔ s.cfg.cancelPresent = true ∧ s.cancel = true :=
  Bool.and_eq_true_iff

theorem State.cancelTaken_of_absent {s : State} (h : s.cfg.cancelPresent = false) : s.cancelTaken = false := by
  simp [State.cancelTaken, h]

theorem State.cancelTaken_congr {s t : State} (hcancel : t.cancel = s.cancel) (hcfg : t.cfg = s.cfg) :
    t.cancelTaken = s.cancelTaken := by
  rw [State.cancelTaken, State.cancelTaken, hcancel, hcfg]

theorem acceptAnswer_setCancel (b : Bool) (r : InAnswer) (s : State) :
    acceptAnswer r (setCancel b s) = setCancel b (acceptAnswer r s) := by
  rcases acceptAnswer_cases r s with ⟨rfl, -⟩ | ⟨n, rfl, hout, e⟩ | ⟨n, rfl, hlo, hhi, e⟩
  · rfl
  · rw [e, acceptAnswer_outside hout]
    rfl
  · rw [e, acceptAnswer_inside hlo hhi]
    rfl

theorem serveInput_setCancel (b : Bool) (s : State) : serveInput (setCancel b s) = setCancel b (serveInput s) := by
  rcases serveInput_cases s with ⟨h, e⟩ | ⟨r, rest, h, e⟩ <;> rw [e]
  · exact serveInput_nil h
  · rw [serveInput_cons (s := setCancel b s) h]
    exact acceptAnswer_setCancel b r (takeAnswer rest s)

theorem branchIf_setCancel (b c : Bool) (a : Addr) (s : State) :
    branchIf c a (setCancel b s) = setCancel b (branchIf c a s) := by
  cases c <;> rfl

/-- No instruction reads the cancel input. -/
theorem exec_setCancel (b : Bool) {i : Instr} {s t : State} (h : exec i s = .next t) :
    exec i (setCancel b s) = .next (setCancel b t) := by
  cases i with
  | hlt a | add a | sub a | sta a | mul a | lda a | bra a | out => cases h; rfl
  | brz a | brp a => cases h; exact congrArg _ (branchIf_setCancel b _ a s)
  | inp => cases h; exact congrArg _ (serveInput_setCancel b (requestInput (s.emit .prompt)))
  | illegal9 a =>
    cases hcfg : s.cfg.ioOtherOperand with
    | fault =>
      rw [exec_illegal9_fault hcfg] at h
      cases h
      exact exec_illegal9_fault (s := setCancel b s) hcfg a
    | nop =>
      rw [exec_illegal9_nop hcfg] at h
      cases h
      exact exec_illegal9_nop (s := setCancel b s) hcfg a

/-- Where cancel is not sampled, a step does the same whatever the input's level (R92). -/
theorem step_setCancel (b : Bool) {s t : State} (hs : s.inReq = true ∨ s.cfg.cancelPresent = false)
    (h : step s = .next t) : step (setCancel b s) = .next (setCancel b t) := by
  have habsent : s.inReq = false → s.cfg.cancelPresent = false := fun hreq => hs.resolve_left (by simp [hreq])
  rcases step_cases h with ⟨hst, rfl⟩ | ⟨hst, hreq, rfl⟩ | ⟨-, hreq, hcancel, -⟩ | ⟨hst, hreq, -, hpc, rfl⟩
    | ⟨hst, hreq, -, p, i, u, hpc, hi, hu, rfl⟩
  · exact step_of_not_running hst
  · rw [step_of_waiting (s := setCancel b s) hst hreq, serveInput_setCancel]
    rfl
  · have hnot := State.cancelTaken_of_absent (habsent hreq)
    exact absurd hcancel (by simp [hnot])
  · rw [step_of_cycle (s := setCancel b s) hst hreq]
    exact cycle_of_top (State.cancelTaken_of_absent (habsent hreq)) (State.fetchAddr_of_top hpc)
  · have hfetch : (setCancel b s).FetchesAt p (s.memRead p).val :=
      ⟨⟨hst, hreq, State.cancelTaken_of_absent (habsent hreq)⟩, hpc, rfl⟩
    exact step_next_of_fetchesAt hfetch hi (exec_setCancel b hu)

/-- Settles O29: the cancel arm of the cycle, and `step_setCancel` where the input is not sampled. -/
theorem cancelIsSampledAtCycleStart : Obligations.CancelIsSampledAtCycleStart := by
  refine fun s => ⟨fun hst hreq hpresent hcancel => ?_, fun b t hs h => step_setCancel b hs h⟩
  rw [step_of_cycle hst hreq]
  exact cycle_of_cancel (s.cancelTaken_iff.mpr ⟨hpresent, hcancel⟩)

/-! ### The PC check -/

theorem step_of_top {s : State} (h : s.Ready) (hpc : s.pc.val = 100) :
    step s = .next (s.raiseFault (.pcOutOfBounds s.pc)) := by
  obtain ⟨hst, hreq, hcancel⟩ := h
  rw [step_of_cycle hst hreq]
  exact cycle_of_top hcancel (State.fetchAddr_of_top hpc)

/-- What a step that fetches at `p` has done: run the decoded instruction between the begin and the end of its cycle. -/
theorem step_next_of_ready {s t : State} {p : Addr} (hs : s.Ready) (hpc : s.pc = p.castSucc) (h : step s = .next t) :
    ∃ i u, Sys2Proof.decode (s.memRead p).val = .instr i ∧ exec i (s.beginCycle p) = .next u ∧ t = u.endCycle := by
  obtain ⟨i, hi, -⟩ := runFetched_word (s.memRead p) (s.beginCycle p)
  rw [step_of_fetchesAt ⟨hs, hpc, rfl⟩ hi] at h
  obtain ⟨u, hu, rfl⟩ := finishCycle_next h
  exact ⟨i, u, hi, hu, rfl⟩

/-- A cycle that passes the PC check raises no PcOutOfBounds: its records are the instruction's. -/
theorem step_fr_ne_pcOutOfBounds {s t : State} (hs : s.Ready) (hpc : s.pc.val ≠ 100) (hfr : s.fr = none)
    (h : step s = .next t) (q : PcVal) : t.fr ≠ some (.pcOutOfBounds q) := by
  obtain ⟨p, hp, -⟩ := s.fetchAddr_cases.resolve_right fun htop => hpc htop.1
  obtain ⟨i, u, -, hu, rfl⟩ := step_next_of_ready hs hp h
  rcases exec_fr_cases hu with e | e | e <;> simp [e, hfr]

/-- Settles O30: the failing check, the records of a cycle that passes it, and the HLT fetched at 99. -/
theorem pcCheckFailsExactlyAtHundred : Obligations.PcCheckFailsExactlyAtHundred := by
  refine fun s hs => ⟨fun hpc => step_of_top hs hpc,
    fun hpc hfr t q h => step_fr_ne_pcOutOfBounds hs hpc hfr h q, fun hpc hword => ?_⟩
  have hfetch : s.FetchesAt 99 0 := ⟨hs, Fin.ext hpc, hword⟩
  have hdecode : Sys2Proof.decode 0 = .instr (.hlt 0) := rfl
  exact ⟨_, step_next_of_fetchesAt hfetch hdecode (exec_hlt 0 _), rfl, rfl, rfl⟩

/-! ### PC after a cycle -/

/-- R98's condition on the opcode and the accumulator: a BRA, a BRZ or a BRP whose test holds. -/
abbrev TakesBranch (op : Nat) (acc : Word) : Prop :=
  op = 6 ∨ (op = 7 ∧ decodeSigned acc = 0) ∨ (op = 8 ∧ 0 ≤ decodeSigned acc)

theorem branchIf_pc (c : Bool) (a : Addr) (s : State) :
    (branchIf c a s).pc = if c then branchTarget a else s.pc := by
  cases c <;> rfl

theorem exec_pc_of_not_branch {i : Instr} {s t : State} (hi : i.mnemonic ∉ ["BRA", "BRZ", "BRP"])
    (h : exec i s = .next t) : t.pc = s.pc := by
  rcases exec_core_cases h with ⟨_, -, rfl⟩ | ⟨_, -, rfl⟩ | ⟨_, -, rfl⟩ | ⟨hb, -⟩ | ⟨-, rfl⟩ | ⟨-, rfl⟩
    | ⟨_, -, -, rfl⟩ | ⟨_, -, -, rfl⟩
  -- the branches
  case inr.inr.inr.inl => exact absurd hb hi
  -- INP
  case inr.inr.inr.inr.inl =>
    obtain ⟨-, hpc, -⟩ := serveInput_frame (requestInput (s.emit .prompt))
    exact hpc
  all_goals rfl

/-- PC after an instruction: the target of a taken branch, and otherwise what the fetch left (R98, R124). -/
theorem exec_pc {i : Instr} {s t : State} (h : exec i s = .next t) :
    t.pc = if TakesBranch i.opcode.val s.acc then branchTarget i.operand else s.pc := by
  cases i with
  | bra a => cases h; simp [TakesBranch, Instr.opcode, Instr.operand, branchIf_pc]
  | brz a => cases h; simp [TakesBranch, Instr.opcode, Instr.operand, branchIf_pc, accIsZero]
  | brp a => cases h; simp [TakesBranch, Instr.opcode, Instr.operand, branchIf_pc, accIsNonNegative]
  | hlt a | add a | sub a | sta a | mul a | lda a | inp | out | illegal9 a =>
    rw [exec_pc_of_not_branch (by simp [Instr.mnemonic]) h, if_neg (by simp [TakesBranch, Instr.opcode])]

/-- PC after a cycle that fetched at `p` (R98), by the digits of the fetched word. -/
theorem step_pc {s t : State} {p : Addr} (hs : s.Ready) (hpc : s.pc = p.castSucc) (h : step s = .next t) :
    t.pc.val = if TakesBranch ((s.memRead p).val / 100) s.acc then (s.memRead p).val % 100 else p.val + 1 := by
  obtain ⟨i, u, hi, hu, rfl⟩ := step_next_of_ready hs hpc h
  obtain ⟨hop, ha⟩ := opcode_of_decode hi
  have hupc := exec_pc hu
  rw [hop, State.beginCycle_acc, State.beginCycle_pc] at hupc
  rw [State.endCycle_pc, hupc, apply_ite Fin.val, branchTarget_val, ha, Fin.val_succ]

/-- A cycle leaves the cancel input and the parameters alone, so a running core it leaves has again no cancel to take. -/
theorem step_ready_of_running {s t : State} {p : Addr} (hs : s.Ready) (hpc : s.pc = p.castSucc) (h : step s = .next t)
    (hst : t.st = .running) (hreq : t.inReq = false) : t.Ready := by
  obtain ⟨i, u, -, hu, rfl⟩ := step_next_of_ready hs hpc h
  obtain ⟨-, -, hnot⟩ := hs
  obtain ⟨-, hcancel, hcfg⟩ := exec_sameRest hu
  exact ⟨hst, hreq, (State.cancelTaken_congr hcancel hcfg).trans hnot⟩

/-- Settles O33: `step_pc` in its two cases, and the PC check of the cycle after. -/
theorem pcAfterCycle : Obligations.PcAfterCycle := by
  intro s t p hs hpc h
  have htpc := step_pc hs hpc h
  refine ⟨fun htaken => htpc.trans (if_pos htaken), fun hnot => htpc.trans (if_neg hnot), fun hst hreq htop => ?_⟩
  exact ⟨_, step_of_top (step_ready_of_running hs hpc h hst hreq) htop, rfl, rfl⟩

end Sys2Proof.Machine

/-! Arithmetic (spec R100 to R105): the ALU on signed values and on raw Words, and the instructions that write the
accumulator and nothing else. -/

namespace Sys2Proof.Machine

/-! ### The ALU -/

/-- The range of the exact product of two signed values: the corner `-500 * 499` is the least, `-500 * -500` the
greatest. Each bound is a combination of two products of distances to the range's ends, which are not negative. -/
theorem decodeSigned_mul_mem_range (x y : Word) :
    -249500 ≤ decodeSigned x * decodeSigned y ∧ decodeSigned x * decodeSigned y ≤ 250000 := by
  obtain ⟨hxlo, hxhi⟩ := decodeSigned_mem_range x
  obtain ⟨hylo, hyhi⟩ := decodeSigned_mem_range y
  constructor
  · have hlolo := mul_nonneg (Int.sub_nonneg.mpr hxlo) (Int.sub_nonneg.mpr hylo)
    have hhihi := mul_nonneg (Int.sub_nonneg.mpr hxhi) (Int.sub_nonneg.mpr hyhi)
    linarith
  · have hlohi := mul_nonneg (Int.sub_nonneg.mpr hxlo) (Int.sub_nonneg.mpr hyhi)
    have hhilo := mul_nonneg (Int.sub_nonneg.mpr hxhi) (Int.sub_nonneg.mpr hylo)
    linarith

/-- Settles O4: the equations are the ALU's definition, the ranges come from those of the operands. -/
theorem aluComputesExactlyThenEncodes : Obligations.AluComputesExactlyThenEncodes := by
  intro x y
  obtain ⟨hxlo, hxhi⟩ := decodeSigned_mem_range x
  obtain ⟨hylo, hyhi⟩ := decodeSigned_mem_range y
  exact ⟨⟨rfl, by omega, by omega⟩, ⟨rfl, by omega, by omega⟩, rfl, decodeSigned_mul_mem_range x y⟩

/-- `decodeSigned_emod` as a congruence, which sums, differences and products keep. -/
theorem decodeSigned_modEq (w : Word) : decodeSigned w ≡ (w.val : Int) [ZMOD 1000] := by
  have h := Int.mod_modEq (decodeSigned w) 1000
  rw [decodeSigned_emod] at h
  exact h.symm

theorem aluExact_modEq (op : AluOp) {x x' y y' : Int} (hx : x ≡ x' [ZMOD 1000]) (hy : y ≡ y' [ZMOD 1000]) :
    aluExact op x y ≡ aluExact op x' y' [ZMOD 1000] := by
  cases op with
  | add => exact hx.add hy
  | sub => exact hx.sub hy
  | mul => exact hx.mul hy

/-- The ALU on raw Words (R104): decoding the operands first does not change the residue. -/
theorem alu_val (op : AluOp) (x y : Word) : ((alu op x y).val : Int) = aluExact op x.val y.val % 1000 :=
  (encodeSigned_val _).trans (aluExact_modEq op (decodeSigned_modEq x) (decodeSigned_modEq y))

/-- Settles O5: `alu_val` at each operation. -/
theorem aluIsArithmeticModuloThousand : Obligations.AluIsArithmeticModuloThousand :=
  fun x y => ⟨alu_val .add x y, alu_val .sub x y, alu_val .mul x y⟩

/-- Settles O6: each instruction only writes the ALU's result to ACC, and a decoded result of encode is the one
congruent signed value. -/
theorem overflowWrapsWithoutTrace : Obligations.OverflowWrapsWithoutTrace := by
  intro op a s
  refine ⟨s.setAcc (alu op s.acc (s.memRead a)), ?_, rfl, eq_decodeSigned_encodeSigned_iff _⟩
  cases op with
  | add => exact exec_add a s
  | sub => exact exec_sub a s
  | mul => exact exec_mul a s

/-! ### Instructions that write the accumulator alone -/

/-- The frame of an instruction that writes `v` to ACC. -/
theorem exec_frame_of_setAcc {i : Instr} {s : State} {v : Word} (h : exec i s = .next (s.setAcc v)) :
    ∃ t, exec i s = .next t ∧ t.acc = v
      ∧ t.pc = s.pc ∧ SameMemory s t ∧ SameStatus s t ∧ SameConsole s t ∧ SameRest s t :=
  ⟨_, h, rfl, rfl, fun _ => rfl, ⟨rfl, rfl⟩, ⟨rfl, rfl, rfl⟩, rfl, rfl, rfl⟩

/-- The frame of the cycle that fetches such an instruction at `p`. -/
theorem step_frame_of_setAcc {i : Instr} {s : State} {p : Addr} {w : Nat} {v : Word} (hfetch : s.FetchesAt p w)
    (hi : Sys2Proof.decode w = .instr i) (h : exec i (s.beginCycle p) = .next ((s.beginCycle p).setAcc v)) :
    ∃ t, step s = .next t ∧ t.acc = v
      ∧ t.pc = p.succ ∧ SameMemory s t ∧ SameStatus s t ∧ SameConsole s t ∧ CycleEnded s t := by
  have ⟨⟨_, hreq, _⟩, _⟩ := hfetch
  exact ⟨_, step_next_of_fetchesAt hfetch hi h, rfl, rfl, fun _ => rfl, ⟨rfl, rfl⟩, ⟨rfl, rfl, rfl⟩,
    State.endCycle_iw_of_not_waiting hreq, rfl, rfl⟩

/-- Settles O13: ADD writes the ALU's sum to ACC, in `exec` and in the fetching cycle. -/
theorem addWritesWrappedSum : Obligations.AddWritesWrappedSum := by
  intro a s
  have hdecode : Sys2Proof.decode (100 + a.val) = .instr (.add a) := decode_of_digits rfl rfl
  exact ⟨hdecode, exec_frame_of_setAcc (exec_add a s),
    fun p hfetch => step_frame_of_setAcc hfetch hdecode (exec_add a (s.beginCycle p))⟩

/-- Settles O14: SUB writes the ALU's difference to ACC, in `exec` and in the fetching cycle. -/
theorem subWritesWrappedDifference : Obligations.SubWritesWrappedDifference := by
  intro a s
  have hdecode : Sys2Proof.decode (200 + a.val) = .instr (.sub a) := decode_of_digits rfl rfl
  exact ⟨hdecode, exec_frame_of_setAcc (exec_sub a s),
    fun p hfetch => step_frame_of_setAcc hfetch hdecode (exec_sub a (s.beginCycle p))⟩

/-- Settles O15: MUL writes the ALU's product to ACC, in `exec` and in the fetching cycle. -/
theorem mulWritesWrappedProduct : Obligations.MulWritesWrappedProduct := by
  intro a s
  have hdecode : Sys2Proof.decode (400 + a.val) = .instr (.mul a) := decode_of_digits rfl rfl
  exact ⟨hdecode, exec_frame_of_setAcc (exec_mul a s),
    fun p hfetch => step_frame_of_setAcc hfetch hdecode (exec_mul a (s.beginCycle p))⟩

end Sys2Proof.Machine

/-! Data movement (spec R110, R111): LDA as a write of the accumulator alone, STA as a write of one cell alone, and the
memory every other instruction keeps. -/

namespace Sys2Proof.Machine

/-- Settles O16: LDA writes the raw Word of its cell to ACC, in `exec` and in the fetching cycle. -/
theorem ldaCopiesCellToAccumulator : Obligations.LdaCopiesCellToAccumulator := by
  intro a s
  have hdecode : Sys2Proof.decode (500 + a.val) = .instr (.lda a) := decode_of_digits rfl rfl
  exact ⟨hdecode, exec_frame_of_setAcc (exec_lda a s),
    fun p hfetch => step_frame_of_setAcc hfetch hdecode (exec_lda a (s.beginCycle p))⟩

/-- STA is the only instruction that writes memory (R111). -/
theorem exec_mem_of_not_sta {i : Instr} {s t : State} (hi : ∀ a, i ≠ .sta a) (h : exec i s = .next t) :
    t.mem = s.mem := by
  rcases exec_core_cases h with ⟨_, -, rfl⟩ | ⟨_, -, rfl⟩ | ⟨a, hsta, -⟩ | ⟨-, rfl | rfl⟩ | ⟨-, rfl⟩ | ⟨-, rfl⟩
    | ⟨_, -, -, rfl⟩ | ⟨_, -, -, rfl⟩
  -- STA
  case inr.inr.inl => exact absurd hsta (hi a)
  -- INP
  case inr.inr.inr.inr.inl =>
    obtain ⟨hmem, -, -⟩ := serveInput_frame (requestInput (s.emit .prompt))
    exact hmem
  all_goals rfl

/-- The frame of STA: its cell gets the raw accumulator, and nothing else changes. -/
theorem exec_sta_frame (a : Addr) {s : State} (hm : Memory.wf s.mem = true) :
    ∃ t, exec (.sta a) s = .next t ∧ t.memRead a = s.acc ∧ (∀ b : Addr, b ≠ a → t.memRead b = s.memRead b)
      ∧ t.acc = s.acc ∧ t.pc = s.pc ∧ SameStatus s t ∧ SameConsole s t ∧ SameRest s t :=
  ⟨_, exec_sta a s, s.memRead_memWrite_same a s.acc hm, fun _ hb => s.memRead_memWrite_ne s.acc hb, rfl, rfl,
    ⟨rfl, rfl⟩, ⟨rfl, rfl, rfl⟩, rfl, rfl, rfl⟩

/-- The frame of the cycle that fetches STA at `p`: that of `exec` on the state the fetch left. -/
theorem step_sta_frame {a p : Addr} {s : State} {w : Nat} (hm : Memory.wf s.mem = true) (hfetch : s.FetchesAt p w)
    (hi : Sys2Proof.decode w = .instr (.sta a)) :
    ∃ t, step s = .next t ∧ t.memRead a = s.acc ∧ (∀ b : Addr, b ≠ a → t.memRead b = s.memRead b)
      ∧ t.acc = s.acc ∧ t.pc = p.succ ∧ SameStatus s t ∧ SameConsole s t ∧ CycleEnded s t := by
  obtain ⟨u, hu, hcell, hother, hacc, hpc, hstatus, ⟨houtq, hreq, hscript⟩, -, hcancel, hcfg⟩ :=
    exec_sta_frame a (s := s.beginCycle p) hm
  have ⟨⟨_, hnot, _⟩, _⟩ := hfetch
  exact ⟨u.endCycle, step_next_of_fetchesAt hfetch hi hu, hcell, hother, hacc, hpc, hstatus, ⟨houtq, hreq, hscript⟩,
    State.endCycle_iw_of_not_waiting (hreq.trans hnot), hcancel, hcfg⟩

/-- Settles O17: the frames of STA in `exec` and in the fetching cycle, and `exec_mem_of_not_sta` for the others. -/
theorem staCopiesAccumulatorToCell : Obligations.StaCopiesAccumulatorToCell := by
  intro a s hm
  have hdecode : Sys2Proof.decode (300 + a.val) = .instr (.sta a) := decode_of_digits rfl rfl
  exact ⟨hdecode, exec_sta_frame a hm, fun p hfetch => step_sta_frame hm hfetch hdecode,
    fun i t hi h => State.memRead_congr (exec_mem_of_not_sta hi h)⟩

end Sys2Proof.Machine

/-! Control (spec R120 to R124): HLT and the rest of its run, and the branches as writes of PC alone. -/

namespace Sys2Proof.Machine

/-- Settles O18: HLT writes ST alone, in `exec` and in the fetching cycle, and a core that is not Running takes no
further step. -/
theorem hltHaltsSuccessfully : Obligations.HltHaltsSuccessfully := by
  intro a s
  have hdecode : Sys2Proof.decode a.val = .instr (.hlt a) := decode_of_digits rfl (Nat.zero_add _).symm
  refine ⟨hdecode, ?_, fun p hfetch => ?_⟩
  · exact ⟨_, exec_hlt a s, rfl, rfl, rfl, rfl, rfl, fun _ => rfl, ⟨rfl, rfl, rfl⟩, rfl, rfl, rfl⟩
  · have ⟨⟨_, hreq, _⟩, _⟩ := hfetch
    have hrest : step (s.beginCycle p).halt.endCycle = .next (s.beginCycle p).halt.endCycle :=
      step_of_not_running (by simp)
    exact ⟨_, step_next_of_fetchesAt hfetch hdecode (exec_hlt a _), rfl, rfl, rfl, rfl, fun _ => rfl, ⟨rfl, rfl, rfl⟩,
      ⟨State.endCycle_iw_of_not_waiting hreq, rfl, rfl⟩, run_of_step_self hrest⟩

/-! ### The branch conditions -/

theorem accIsZero_of_eq {s : State} (h : decodeSigned s.acc = 0) : accIsZero s = true := decide_eq_true h

theorem accIsZero_of_ne {s : State} (h : decodeSigned s.acc ≠ 0) : accIsZero s = false := decide_eq_false h

theorem accIsNonNegative_of_nonneg {s : State} (h : 0 ≤ decodeSigned s.acc) : accIsNonNegative s = true :=
  decide_eq_true h

theorem accIsNonNegative_of_neg {s : State} (h : decodeSigned s.acc < 0) : accIsNonNegative s = false :=
  decide_eq_false (Int.not_le.mpr h)

/-! ### Instructions that write PC alone -/

/-- The branch controller writes PC alone (R124). -/
theorem branchIf_frame (c : Bool) (a : Addr) (s : State) :
    (branchIf c a s).acc = s.acc ∧ SameMemory s (branchIf c a s) ∧ SameStatus s (branchIf c a s)
      ∧ SameConsole s (branchIf c a s) ∧ SameRest s (branchIf c a s) := by
  rcases branchIf_cases c a s with ⟨-, e⟩ | ⟨-, e⟩ <;> rw [e] <;>
    exact ⟨rfl, fun _ => rfl, ⟨rfl, rfl⟩, ⟨rfl, rfl, rfl⟩, rfl, rfl, rfl⟩

section
variable {taken notTaken : Prop} {c : Bool} {i : Instr} {a : Addr} {s : State}

/-- The frame of an instruction that branches to `a` on condition `c`. -/
theorem exec_frame_of_branchIf (htaken : taken → c = true) (hnot : notTaken → c = false)
    (h : exec i s = .next (branchIf c a s)) :
    ∃ t, exec i s = .next t ∧ (taken → t.pc.val = a.val) ∧ (notTaken → t.pc = s.pc)
      ∧ t.acc = s.acc ∧ SameMemory s t ∧ SameStatus s t ∧ SameConsole s t ∧ SameRest s t := by
  refine ⟨_, h, fun hp => ?_, fun hp => ?_, branchIf_frame c a s⟩
  · rw [htaken hp, branchIf_true, State.setPc_pc, branchTarget_val]
  · rw [hnot hp, branchIf_false]

/-- The frame of the cycle that fetches such an instruction at `p`: that of `exec` on the state the fetch left. -/
theorem step_frame_of_branchIf {p : Addr} {w : Nat} (htaken : taken → c = true) (hnot : notTaken → c = false)
    (hfetch : s.FetchesAt p w) (hi : Sys2Proof.decode w = .instr i)
    (h : exec i (s.beginCycle p) = .next (branchIf c a (s.beginCycle p))) :
    ∃ t, step s = .next t ∧ (taken → t.pc.val = a.val) ∧ (notTaken → t.pc = p.succ)
      ∧ t.acc = s.acc ∧ SameMemory s t ∧ SameStatus s t ∧ SameConsole s t ∧ CycleEnded s t := by
  obtain ⟨u, hu, htarget, hnext, hacc, hmem, hstatus, ⟨houtq, hreq, hscript⟩, -, hcancel, hcfg⟩ :=
    exec_frame_of_branchIf htaken hnot h
  have ⟨⟨_, hnone, _⟩, _⟩ := hfetch
  exact ⟨u.endCycle, step_next_of_fetchesAt hfetch hi hu, htarget, hnext, hacc, hmem, hstatus,
    ⟨houtq, hreq, hscript⟩, State.endCycle_iw_of_not_waiting (hreq.trans hnone), hcancel, hcfg⟩

end

/-- Settles O19: BRA writes its target to PC, in `exec` and, over the incremented PC, in the fetching cycle. -/
theorem braReplacesPc : Obligations.BraReplacesPc := by
  intro a s
  have hdecode : Sys2Proof.decode (600 + a.val) = .instr (.bra a) := decode_of_digits rfl rfl
  refine ⟨hdecode, ?_, fun p hfetch => ?_⟩
  · exact ⟨_, exec_bra a s, rfl, rfl, fun _ => rfl, ⟨rfl, rfl⟩, ⟨rfl, rfl, rfl⟩, rfl, rfl, rfl⟩
  · have ⟨⟨_, hreq, _⟩, _⟩ := hfetch
    exact ⟨_, step_next_of_fetchesAt hfetch hdecode (exec_bra a _), rfl, rfl, fun _ => rfl, ⟨rfl, rfl⟩,
      ⟨rfl, rfl, rfl⟩, State.endCycle_iw_of_not_waiting hreq, rfl, rfl⟩

/-- Settles O20: BRZ branches on `accIsZero`, in `exec` and in the fetching cycle; only the Word 0 decodes to 0. -/
theorem brzBranchesOnZero : Obligations.BrzBranchesOnZero := by
  intro a s
  have hdecode : Sys2Proof.decode (700 + a.val) = .instr (.brz a) := decode_of_digits rfl rfl
  exact ⟨hdecode, decodeSigned_eq_zero_iff s.acc,
    exec_frame_of_branchIf accIsZero_of_eq accIsZero_of_ne (exec_brz a s),
    fun p hfetch => step_frame_of_branchIf accIsZero_of_eq accIsZero_of_ne hfetch hdecode
      (exec_brz a (s.beginCycle p))⟩

/-- Settles O21: BRP branches on `accIsNonNegative`, in `exec` and in the fetching cycle; the Words up to 499 are those
that decode to no negative value. -/
theorem brpBranchesOnNonNegative : Obligations.BrpBranchesOnNonNegative := by
  intro a s
  have hdecode : Sys2Proof.decode (800 + a.val) = .instr (.brp a) := decode_of_digits rfl rfl
  exact ⟨hdecode, decodeSigned_nonneg_iff s.acc,
    exec_frame_of_branchIf accIsNonNegative_of_nonneg accIsNonNegative_of_neg (exec_brp a s),
    fun p hfetch => step_frame_of_branchIf accIsNonNegative_of_nonneg accIsNonNegative_of_neg hfetch hdecode
      (exec_brp a (s.beginCycle p))⟩

end Sys2Proof.Machine

/-! Console input and output (spec R130 to R136): INP with an answer there, OUT as an append to OUTQ alone, and the
events of every instruction. -/

namespace Sys2Proof.Machine

/-! ### INP with the host's answer -/

/-- R133's three outcomes of an INP executing at address `ad`, from `s` to `t`, by the answer `r` it takes. -/
structure InpCompletes (r : InAnswer) (ad : Int) (s t : State) : Prop where
  fail : r = .fail → t.outq = s.outq ++ [.prompt] ∧ t.acc = s.acc ∧ t.st = .faulted
    ∧ t.fr = some (.inputReadError ad)
  outside : ∀ n : Int, r = .ok n → (n < -999 ∨ 999 < n) →
    t.outq = s.outq ++ [.prompt, .invalidInputDiag] ∧ t.acc.val = 0 ∧ SameStatus s t
  inside : ∀ n : Int, r = .ok n → -999 ≤ n → n ≤ 999 →
    t.outq = s.outq ++ [.prompt] ∧ t.acc = encodeSigned n ∧ SameStatus s t

/-- An answer there when INP executes is taken at once, and acts after the Prompt. -/
theorem exec_inp_of_answer {s : State} {r : InAnswer} {rest : List InAnswer} (h : s.script = r :: rest) :
    exec .inp s = .next (acceptAnswer r (takeAnswer rest (requestInput (s.emit .prompt)))) := by
  rw [exec_inp, serveInput_cons (s := requestInput (s.emit .prompt)) h]

theorem acceptAnswer_inReq (r : InAnswer) (s : State) : (acceptAnswer r s).inReq = s.inReq := by
  rcases acceptAnswer_cases r s with ⟨-, e⟩ | ⟨_, -, -, e⟩ | ⟨_, -, -, -, e⟩ <;> rw [e] <;> rfl

theorem inpCompletes_acceptAnswer (r : InAnswer) (rest : List InAnswer) (s : State) :
    InpCompletes r s.executingAddress s (acceptAnswer r (takeAnswer rest (requestInput (s.emit .prompt)))) where
  fail := by
    rintro rfl
    rw [acceptAnswer_fail]
    exact ⟨rfl, rfl, rfl, rfl⟩
  outside n := by
    rintro rfl hn
    rw [acceptAnswer_outside hn]
    exact ⟨List.append_assoc .., rfl, rfl, rfl⟩
  inside n := by
    rintro rfl hlo hhi
    rw [acceptAnswer_inside hlo hhi]
    exact ⟨rfl, rfl, rfl, rfl⟩

/-- INP with an answer there: its outcome, the end of its request, and its frame. -/
theorem exec_inp_frame {s : State} {r : InAnswer} {rest : List InAnswer} (h : s.script = r :: rest) :
    ∃ t, exec .inp s = .next t ∧ InpCompletes r s.executingAddress s t ∧ t.inReq = false
      ∧ t.pc = s.pc ∧ SameMemory s t ∧ SameRest s t := by
  have hexec := exec_inp_of_answer h
  obtain ⟨hmem, hpc, -⟩ := acceptAnswer_frame r (takeAnswer rest (requestInput (s.emit .prompt)))
  exact ⟨_, hexec, inpCompletes_acceptAnswer r rest s, acceptAnswer_inReq _ _, hpc, State.memRead_congr hmem,
    exec_sameRest hexec⟩

/-- The cycle that fetches INP at `p`: the outcome and the frame of `exec` on the state the fetch left. -/
theorem step_inp_frame {s : State} {p : Addr} {w : Nat} {r : InAnswer} {rest : List InAnswer}
    (h : s.script = r :: rest) (hfetch : s.FetchesAt p w) (hi : Sys2Proof.decode w = .instr .inp) :
    ∃ t, step s = .next t ∧ InpCompletes r p.val s t ∧ t.pc = p.succ ∧ SameMemory s t ∧ CycleEnded s t := by
  obtain ⟨u, hu, hcompletes, hreq, hpc, hmem, -, hcancel, hcfg⟩ := exec_inp_frame (s := s.beginCycle p) h
  rw [State.executingAddress_beginCycle] at hcompletes
  obtain ⟨hfail, houtside, hinside⟩ := hcompletes
  exact ⟨u.endCycle, step_next_of_fetchesAt hfetch hi hu, ⟨hfail, houtside, hinside⟩, hpc, hmem,
    State.endCycle_iw_of_not_waiting hreq, hcancel, hcfg⟩

/-- Settles O22: the outcomes and the frame of INP, in `exec` and in the fetching cycle. -/
theorem inpActsOnTheAnswer : Obligations.InpActsOnTheAnswer := by
  intro r rest s h
  have hdecode : Sys2Proof.decode 901 = .instr .inp := decode_of_digits rfl rfl
  refine ⟨hdecode, ?_, fun p hfetch => ?_⟩
  · obtain ⟨t, ht, hcompletes, -, hframe⟩ := exec_inp_frame h
    exact ⟨t, ht, hcompletes.fail, hcompletes.outside, hcompletes.inside, hframe⟩
  · obtain ⟨t, ht, hcompletes, hframe⟩ := step_inp_frame h hfetch hdecode
    exact ⟨t, ht, hcompletes.fail, hcompletes.outside, hcompletes.inside, hframe⟩

/-! ### The events of each instruction -/

/-- The script has an answer at its head that INP reports as invalid (R133). -/
abbrev State.HasInvalidAnswer (s : State) : Prop :=
  ∃ n rest, s.script = .ok n :: rest ∧ (n < -999 ∨ 999 < n)

theorem exec_inp_outq_of_invalid {s t : State} (hs : s.HasInvalidAnswer) (h : exec .inp s = .next t) :
    t.outq = s.outq ++ [.prompt, .invalidInputDiag] := by
  obtain ⟨n, rest, hscript, hn⟩ := hs
  obtain ⟨u, hu, hcompletes, -⟩ := exec_inp_frame hscript
  cases hu.symm.trans h
  obtain ⟨houtq, -⟩ := hcompletes.outside n rfl hn
  exact houtq

/-- No diagnostic where no answer is there, where the read failed, and where the value is accepted. -/
theorem exec_inp_outq_of_not_invalid {s t : State} (hs : ¬ s.HasInvalidAnswer) (h : exec .inp s = .next t) :
    t.outq = s.outq ++ [.prompt] := by
  cases hscript : s.script with
  | nil =>
    rw [exec_inp, serveInput_nil (s := requestInput (s.emit .prompt)) hscript] at h
    cases h
    rfl
  | cons r rest =>
    obtain ⟨u, hu, hcompletes, -⟩ := exec_inp_frame hscript
    cases hu.symm.trans h
    cases r with
    | fail =>
      obtain ⟨houtq, -⟩ := hcompletes.fail rfl
      exact houtq
    | ok n =>
      have hn : ¬ (n < -999 ∨ 999 < n) := fun hn => hs ⟨n, rest, hscript, hn⟩
      obtain ⟨houtq, -⟩ := hcompletes.inside n rfl (by omega) (by omega)
      exact houtq

/-- Only the two console instructions emit events; an illegal word's fault is none (R131). -/
theorem exec_outq_of_not_console {i : Instr} {s t : State} (hout : i ≠ .out) (hinp : i ≠ .inp)
    (h : exec i s = .next t) : t.outq = s.outq := by
  rcases exec_core_cases h with ⟨_, -, rfl⟩ | ⟨_, -, rfl⟩ | ⟨_, -, rfl⟩ | ⟨-, rfl | rfl⟩ | ⟨hi, -⟩ | ⟨hi, -⟩
    | ⟨_, -, -, rfl⟩ | ⟨_, -, -, rfl⟩
  -- INP
  case inr.inr.inr.inr.inl => exact absurd hi hinp
  -- OUT
  case inr.inr.inr.inr.inr.inl => exact absurd hi hout
  all_goals rfl

/-- Settles O36: OUT's value with its range, INP's events with and without an invalid answer, and none elsewhere. -/
theorem eventsEmittedByEachInstruction : Obligations.EventsEmittedByEachInstruction := by
  refine ⟨fun i s t h => ⟨?_, ?_, ?_, fun hout hinp => exec_outq_of_not_console hout hinp h⟩,
    fun r s => s.raiseFault_outq r⟩
  · rintro rfl
    cases (exec_out s).symm.trans h
    exact ⟨rfl, decodeSigned_mem_range s.acc⟩
  · rintro rfl hs
    exact exec_inp_outq_of_invalid hs h
  · rintro rfl hs
    exact exec_inp_outq_of_not_invalid hs h

/-- Settles O25: OUT appends the signed accumulator to OUTQ, in `exec` and in the fetching cycle. -/
theorem outEmitsSignedAccumulator : Obligations.OutEmitsSignedAccumulator := by
  have hdecode : Sys2Proof.decode 902 = .instr .out := decode_of_digits rfl rfl
  refine ⟨hdecode, fun s => ?_, fun s p hfetch => ?_⟩
  · exact ⟨_, exec_out s, rfl, rfl, rfl, rfl, rfl, fun _ => rfl, ⟨rfl, rfl⟩, rfl, rfl, rfl⟩
  · have ⟨⟨_, hreq, _⟩, _⟩ := hfetch
    exact ⟨_, step_next_of_fetchesAt hfetch hdecode (exec_out _), rfl, rfl, rfl, rfl, rfl, fun _ => rfl, ⟨rfl, rfl⟩,
      State.endCycle_iw_of_not_waiting hreq, rfl, rfl⟩

end Sys2Proof.Machine

/-! Faults and terminal statuses (spec R150 to R159): the cycles that end in a fault and the state each of them leaves,
and what the host's commands do to a run that has ended. -/

namespace Sys2Proof.Machine

/-! ### The ways into a fault -/

/-- An outstanding request faults only by taking the answer Fail (R133). -/
theorem serveInput_eq_of_faulted {s : State} (hs : s.st ≠ .faulted) (ht : (serveInput s).st = .faulted) :
    ∃ rest, s.script = .fail :: rest
      ∧ serveInput s = (takeAnswer rest s).raiseFault (.inputReadError s.executingAddress) := by
  rcases serveInput_cases s with ⟨-, e⟩ | ⟨r, rest, hscript, e⟩ <;> rw [e] at ht
  · exact absurd ht hs
  · rcases acceptAnswer_cases r (takeAnswer rest s) with ⟨rfl, e'⟩ | ⟨_, -, -, e'⟩ | ⟨_, -, -, -, e'⟩
    · exact ⟨rest, hscript, e.trans e'⟩
    all_goals
      rw [e'] at ht
      exact absurd ht hs

/-- An instruction faults in two ways: it is an illegal word, or an INP that is answered Fail at once (R152, R153). -/
theorem exec_cases_of_faulted {i : Instr} {s t : State} (hs : s.st ≠ .faulted) (h : exec i s = .next t)
    (ht : t.st = .faulted) :
    (∃ a, i = .illegal9 a ∧ t = s.raiseFault (.invalidInstruction 9 s.executingAddress))
      ∨ (i = .inp ∧ ∃ rest, s.script = .fail :: rest
          ∧ t = (takeAnswer rest (requestInput (s.emit .prompt))).raiseFault
              (.inputReadError s.executingAddress)) := by
  rcases exec_core_cases h with ⟨_, -, rfl⟩ | ⟨_, -, rfl⟩ | ⟨_, -, rfl⟩ | ⟨-, rfl | rfl⟩ | ⟨hi, rfl⟩ | ⟨-, rfl⟩
    | ⟨a, hi, -, rfl⟩ | ⟨_, -, -, rfl⟩
  -- HLT
  case inl => cases ht
  -- INP
  case inr.inr.inr.inr.inl => exact .inr ⟨hi, serveInput_eq_of_faulted (s := requestInput (s.emit .prompt)) hs ht⟩
  -- an illegal word under the parameter value Fault
  case inr.inr.inr.inr.inr.inr.inl => exact .inl ⟨a, hi, rfl⟩
  all_goals exact absurd ht hs

/-! ### Precise faults -/

/-- A value that decodes to an illegal word is one of opcode 9, and not the word of INP or of OUT (R75). -/
theorem word_of_decode_illegal9 {w : Nat} {a : Addr} (h : Sys2Proof.decode w = .instr (.illegal9 a)) :
    w / 100 = 9 ∧ w ≠ 901 ∧ w ≠ 902 := by
  have hinp : Sys2Proof.decode 901 = .instr .inp := decode_of_digits rfl rfl
  have hout : Sys2Proof.decode 902 = .instr .out := decode_of_digits rfl rfl
  obtain ⟨hop, -⟩ := opcode_of_decode h
  refine ⟨hop.symm, ?_, ?_⟩
  · rintro rfl
    cases hinp.symm.trans h
  · rintro rfl
    cases hout.symm.trans h

theorem word_of_decode_inp {w : Nat} (h : Sys2Proof.decode w = .instr .inp) : w = 901 := by
  obtain ⟨hop, ha⟩ := opcode_of_decode h
  simp only [Instr.opcode, Instr.operand] at hop ha
  omega

/-- A fault raised by the instruction fetched at `p`: ST, FR and the incremented PC (R158). -/
theorem State.endCycle_raiseFault_beginCycle {s : State} (hreq : s.inReq = false) (hiw : s.iw = none) (p : Addr)
    (r : FaultRecord) :
    ((s.beginCycle p).raiseFault r).endCycle = { s with st := .faulted, fr := some r, pc := p.succ } := by
  simp [State.endCycle, State.raiseFault, State.beginCycle, hreq, hiw]

/-- A fault raised by the INP fetched at `p`, once its answer is taken: the Prompt too, and the answers to come. -/
theorem State.endCycle_raiseFault_inp {s : State} (hreq : s.inReq = false) (hiw : s.iw = none) (p : Addr)
    (rest : List InAnswer) (r : FaultRecord) :
    ((takeAnswer rest (requestInput ((s.beginCycle p).emit .prompt))).raiseFault r).endCycle
      = { s with st := .faulted, fr := some r, pc := p.succ, outq := s.outq ++ [.prompt], script := rest } := by
  simp [State.endCycle, State.raiseFault, takeAnswer, requestInput, State.emit, State.beginCycle, hreq, hiw]

/-- Settles O32: a fault is that of the PC check or one of the two an instruction can raise; the latch the cycle drops
was empty before it, by the invariant. -/
theorem faultsArePrecise : Obligations.FaultsArePrecise := by
  intro s t ⟨_, _, _, hlatch, _⟩ hst hreq h ht
  have hiw := State.iw_of_not_waiting hlatch hreq
  refine ⟨run_of_step_self (step_of_not_running (by simp [ht])), ?_⟩
  rcases step_cases h with ⟨hnot, -⟩ | ⟨-, hwait, -⟩ | ⟨-, -, -, rfl⟩ | ⟨-, -, -, hpc, rfl⟩
    | ⟨-, -, -, p, i, u, hpc, hi, hu, rfl⟩
  · exact absurd hst hnot
  · simp [hreq] at hwait
  · cases ht
  · exact .inl ⟨hpc, rfl⟩
  · have hbegin : (s.beginCycle p).st ≠ .faulted := by simp [hst]
    rcases exec_cases_of_faulted hbegin hu ht with ⟨a, rfl, rfl⟩ | ⟨rfl, rest, hscript, rfl⟩
    · obtain ⟨hop, hinp, hout⟩ := word_of_decode_illegal9 hi
      refine .inr (.inl ⟨p, hpc, hop, hinp, hout, ?_⟩)
      rw [State.executingAddress_beginCycle, State.endCycle_raiseFault_beginCycle hreq hiw]
    · have hhead : s.script.head? = some .fail := congrArg List.head? hscript
      refine .inr (.inr ⟨p, hpc, word_of_decode_inp hi, hhead, ?_⟩)
      rw [State.executingAddress_beginCycle, State.endCycle_raiseFault_inp hreq hiw]

/-! ### A run that has ended -/

theorem Status.ne_idle_of_terminal {st : Status} (h : st.terminal = true) : st ≠ .idle := by
  rintro rfl
  cases h

theorem Status.ne_running_of_terminal {st : Status} (h : st.terminal = true) : st ≠ .running := by
  rintro rfl
  cases h

theorem hostStep_of_next {s t : State} (h : step s = .next t) : hostStep s = (t, stepAnswer t) := by
  rw [hostStep, h]

/-- The run transaction leaves a core that is not Running as it is, whatever the bound (R91, R96). -/
theorem hostRun_of_not_running {s : State} (h : s.st ≠ .running) (fuel : Nat) : (hostRun fuel s).1 = s := by
  induction fuel with
  | zero => rfl
  | succ k ih =>
    rw [hostRun, hostStep_of_next (step_of_not_running h)]
    split
    next heq =>
      obtain ⟨rfl, -⟩ := Prod.mk.inj heq
      exact ih
    next heq =>
      obtain ⟨rfl, -⟩ := Prod.mk.inj heq
      rfl

/-- An answer of the host reaches nothing but the answers to come (R132). -/
theorem giveAnswer_eq (r : InAnswer) (s : State) : ∃ script, giveAnswer r s = { s with script := script } := by
  unfold giveAnswer
  split
  · exact ⟨[r], rfl⟩
  · exact ⟨s.script, rfl⟩

/-- In a terminal status a command other than a reset reaches nothing of the core: only the answers to come and the
cancel input, which are the host's. -/
theorem applyCommand_of_terminal {c : HostCommand} {s : State} (hs : s.st.terminal = true) (hc : c ≠ .reset) :
    ∃ script cancel, applyCommand c s = { s with script := script, cancel := cancel } := by
  have hidle := Status.ne_idle_of_terminal hs
  have hrunning := Status.ne_running_of_terminal hs
  cases c with
  | load xs => exact ⟨s.script, s.cancel, congrArg Prod.fst (load_of_not_idle hidle xs)⟩
  | step => exact ⟨s.script, s.cancel, congrArg Prod.fst (hostStep_of_next (step_of_not_running hrunning))⟩
  | run fuel => exact ⟨s.script, s.cancel, hostRun_of_not_running hrunning fuel⟩
  | answer r =>
    obtain ⟨script, e⟩ := giveAnswer_eq r s
    exact ⟨script, s.cancel, e⟩
  | cancel b => exact ⟨s.script, b, rfl⟩
  | reset => exact absurd rfl hc

theorem applyReset_inv (s : State) : (applyReset s).Inv := ⟨rfl, rfl, rfl, rfl, rfl⟩

/-- Settles O42: `applyCommand_of_terminal`, and the load's cases before and after the reset. -/
theorem terminalOutcomeIsFinal : Obligations.TerminalOutcomeIsFinal := by
  refine fun s hs => ⟨fun c hc => ?_, fun xs => ⟨?_, fun hlen hrange => ?_⟩⟩
  · obtain ⟨script, cancel, e⟩ := applyCommand_of_terminal hs hc
    exact e ▸ ⟨rfl, rfl, rfl, rfl, rfl, rfl⟩
  · rw [load_of_not_idle (Status.ne_idle_of_terminal hs)]
  · obtain ⟨-, -, haccepts⟩ := loadAcceptsOrRefuses xs (applyReset s) (applyReset_inv s)
    obtain ⟨t, ht, -⟩ := haccepts rfl hlen hrange
    rw [ht]

end Sys2Proof.Machine

/-! The reset transaction (spec R183): what a reset leaves, and that no other command leads out of a terminal status. -/

namespace Sys2Proof.Machine

/-- After a reset every cell reads 0, whatever the memory held (R31, R183). -/
@[simp] theorem memRead_applyReset (s : State) (b : Addr) : (applyReset s).memRead b = 0 :=
  State.memRead_resetWith s.cfg b

/-- A command that changes a terminal status is a reset: every other command keeps ST there. -/
theorem eq_reset_of_applyCommand_st_ne {c : HostCommand} {s : State} (hs : s.st.terminal = true)
    (hst : (applyCommand c s).st ≠ s.st) : c = .reset := by
  by_contra hc
  obtain ⟨script, cancel, e⟩ := applyCommand_of_terminal hs hc
  exact hst (by rw [e])

/-- Settles O41: the fields of the reset state, `memRead_applyReset` and `eq_reset_of_applyCommand_st_ne`. -/
theorem resetIsTheOnlyWayOut : Obligations.ResetIsTheOnlyWayOut := fun s =>
  ⟨rfl, fun b => congrArg Fin.val (memRead_applyReset s b), rfl, rfl, rfl, rfl, rfl, rfl,
    fun _ hs hst => eq_reset_of_applyCommand_st_ne hs hst⟩

end Sys2Proof.Machine

/-! The encoder against the decoder and against the opcode table's digit patterns (spec R70 to R81). -/

namespace Sys2Proof

theorem encode_val (i : Instr) : (encode i).val = 100 * i.opcode.val + i.operand.val := by
  rw [encode, packWord_val, Nat.mul_comm]

/-- Settles O8: the digits of the encoded word are the instruction's, and the decoder reads an instruction off its
digits. -/
theorem decodeOfEncodeGivesInstruction : Obligations.DecodeOfEncodeGivesInstruction :=
  fun i hi => decode_of_digits hi (encode_val i)

/-- The decoder reads `illegal9` off no operand of INP or OUT (R75). -/
theorem wellFormed_of_decode {w : Nat} {i : Instr} (h : decode w = .instr i) : i.wellFormed = true := by
  cases i with
  | illegal9 a =>
    obtain ⟨hop, hinp, hout⟩ := Machine.word_of_decode_illegal9 h
    obtain ⟨-, ha⟩ := opcode_of_decode h
    simp only [Instr.operand] at ha
    exact (Instr.wellFormed_illegal9_iff a).mpr ⟨by omega, by omega⟩
  | hlt a | add a | sub a | sta a | mul a | lda a | bra a | brz a | brp a | inp | out => rfl

theorem encode_of_decode {w : Word} {i : Instr} (h : decode w.val = .instr i) : encode i = w := by
  obtain ⟨hop, ha⟩ := opcode_of_decode h
  have hval := encode_val i
  exact Fin.ext (by omega)

theorem exists_decode (w : Word) : ∃ i, decode w.val = .instr i := by
  obtain ⟨i, hi, -⟩ := Machine.runFetched_word w Machine.State.reset
  exact ⟨i, hi⟩

/-- Settles O9: the decoded instruction encodes to the word it was read from, and by O8's round trip it is the only
one. -/
theorem encodeOfDecodeGivesWord : Obligations.EncodeOfDecodeGivesWord := by
  intro w
  obtain ⟨i, hi⟩ := exists_decode w
  refine ⟨i, hi, wellFormed_of_decode hi, encode_of_decode hi, ?_⟩
  rintro j hj rfl
  cases (decodeOfEncodeGivesInstruction j hj).symm.trans hi
  rfl

/-! ### The opcode table -/

/-- The three decimal digits of an encoded word, as a table row tests them (R70, R81). -/
theorem OpcodeRow.covers_encode (r : OpcodeRow) (i : Instr) :
    r.covers (encode i) = (digitFits r.d2 i.opcode.val && digitFits r.d1 (i.operand.val / 10)
      && digitFits r.d0 (i.operand.val % 10)) := by
  have hval := encode_val i
  have hop := i.opcode.isLt
  have ha := i.operand.isLt
  have h2 : (encode i).digit 2 = i.opcode.val := by simp only [Word.digit]; omega
  have h1 : (encode i).digit 1 = i.operand.val / 10 := by simp only [Word.digit]; omega
  have h0 : (encode i).digit 0 = i.operand.val % 10 := by simp only [Word.digit]; omega
  rw [OpcodeRow.covers, h2, h1, h0]

/-- The first row that covers an encoded instruction is its own: the opcode digit picks the row, and in opcode 9 the
operand of an illegal word passes the rows of INP and OUT. -/
theorem tableMnemonic_encode {i : Instr} (hi : i.wellFormed = true) : tableMnemonic (encode i) = some i.mnemonic := by
  cases i with
  | hlt a | add a | sub a | sta a | mul a | lda a | bra a | brz a | brp a | inp | out =>
    simp [tableMnemonic, opcodeRows, OpcodeRow.covers_encode, digitFits, Instr.opcode, Instr.operand, Instr.mnemonic]
  | illegal9 a =>
    obtain ⟨h1, h2⟩ := (Instr.wellFormed_illegal9_iff a).mp hi
    have hinp : ¬ (0 = a.val / 10 ∧ 1 = a.val % 10) := by omega
    have hout : ¬ (0 = a.val / 10 ∧ 2 = a.val % 10) := by omega
    simp [tableMnemonic, opcodeRows, OpcodeRow.covers_encode, digitFits, Instr.opcode, Instr.operand, Instr.mnemonic,
      hinp, hout]

/-- Settles O11: every Word is the encoding of the instruction it decodes to, whose row the table finds. -/
theorem tableRowsAgreeWithDecoder : Obligations.TableRowsAgreeWithDecoder := by
  intro w
  obtain ⟨i, hi⟩ := exists_decode w
  refine ⟨i, hi, ?_⟩
  rw [← encode_of_decode hi]
  exact tableMnemonic_encode (wellFormed_of_decode hi)

/-- Settles O12: the decoder evaluated on the words written out. -/
theorem sampleWordsDecode : Obligations.SampleWordsDecode := by
  unfold Obligations.SampleWordsDecode
  decide

end Sys2Proof

/-! Steps and runs that answer (spec R90 to R98): every instruction and every step has a next state, and what a step
keeps a run keeps. -/

namespace Sys2Proof.Machine

/-! ### Every step answers next -/

theorem exists_exec_next (i : Instr) (s : State) : ∃ t, exec i s = .next t := by
  cases i with
  | hlt a | add a | sub a | sta a | mul a | lda a | bra a | brz a | brp a | inp | out => exact ⟨_, rfl⟩
  | illegal9 a =>
    cases hcfg : s.cfg.ioOtherOperand with
    | fault => exact ⟨_, exec_illegal9_fault hcfg a⟩
    | nop => exact ⟨_, exec_illegal9_nop hcfg a⟩

theorem exists_cycle_next (s : State) : ∃ t, cycle s = .next t := by
  cases hcancel : s.cancelTaken with
  | true => exact ⟨_, cycle_of_cancel hcancel⟩
  | false =>
    rcases s.fetchAddr_cases with ⟨p, -, hfetch⟩ | ⟨-, hfetch⟩
    · obtain ⟨i, -, hrun⟩ := runFetched_word (s.memRead p) (s.beginCycle p)
      obtain ⟨u, hu⟩ := exists_exec_next i (s.beginCycle p)
      exact ⟨u.endCycle, by rw [cycle_of_fetch hcancel hfetch, hrun, hu]; rfl⟩
    · exact ⟨_, cycle_of_top hcancel hfetch⟩

/-- Settles O46: the step of a core that is not Running, of one inside an INP, and a cycle. -/
theorem everyStepAnswersNext : Obligations.EveryStepAnswersNext := by
  intro s
  by_cases hst : s.st = .running
  · cases hreq : s.inReq with
    | true => exact ⟨_, step_of_waiting hst hreq⟩
    | false =>
      rw [step_of_cycle hst hreq]
      exact exists_cycle_next s
  · exact ⟨s, step_of_not_running hst⟩

/-- Settles O27: the fetching cycle around `exec`, which answers a next state. -/
theorem stepRunsDecodedInstruction : Obligations.StepRunsDecodedInstruction := by
  intro s p i hs hpc hi
  obtain ⟨t, ht⟩ := exists_exec_next i (s.beginCycle p)
  exact ⟨t, ht, step_next_of_fetchesAt ⟨hs, hpc, rfl⟩ hi ht⟩

/-! ### Runs -/

/-- What every step keeps, every run keeps. -/
theorem run_keeps {P : State → Prop} (hstep : ∀ s t, P s → step s = .next t → P t) {k : Nat} {s t : State} (hs : P s)
    (h : Sys2Proof.core.run k s = .next t) : P t := by
  induction k generalizing s with
  | zero => cases h; exact hs
  | succ k ih =>
    obtain ⟨u, hu⟩ := everyStepAnswersNext s
    rw [run_succ hu] at h
    exact ih (hstep s u hs hu) h

/-- The run transaction is a run of at most its bound, cut short only by an answer that is not Continue (R96). -/
theorem hostRun_eq_run {k : Nat} {s t : State} {a : StepAnswer} (h : hostRun k s = (t, a)) :
    ∃ j, j ≤ k ∧ Sys2Proof.core.run j s = .next t ∧ a = stepAnswer t ∧ (a = .goesOn → j = k) := by
  induction k generalizing s with
  | zero =>
    cases h
    exact ⟨0, le_rfl, rfl, rfl, fun _ => rfl⟩
  | succ k ih =>
    obtain ⟨u, hu⟩ := everyStepAnswersNext s
    rw [hostRun, hostStep_of_next hu] at h
    split at h
    next heq =>
      obtain ⟨rfl, -⟩ := Prod.mk.inj heq
      obtain ⟨j, hj, hrun, ha, hfull⟩ := ih h
      exact ⟨j + 1, by omega, (run_succ hu j).trans hrun, ha, fun hgo => by rw [hfull hgo]⟩
    next hnot heq =>
      obtain ⟨rfl, rfl⟩ := Prod.mk.inj heq
      obtain ⟨rfl, rfl⟩ := Prod.mk.inj h
      exact ⟨1, by omega, run_succ hu 0, rfl, fun hgo => absurd hgo hnot⟩

theorem hostRun_keeps {P : State → Prop} (hstep : ∀ s t, P s → step s = .next t → P t) (k : Nat) {s : State}
    (hs : P s) : P (hostRun k s).1 := by
  obtain ⟨j, -, hrun, -⟩ := hostRun_eq_run (k := k) (s := s) rfl
  exact run_keeps hstep hs hrun

/-- Settles O51: the answer of the state a step leaves, by status, and `hostRun_eq_run`. -/
theorem hostStepAndRunAnswer : Obligations.HostStepAndRunAnswer := by
  refine ⟨fun s => ?_, fun s => ⟨fun h => ?_, fun h => ?_, fun h => ?_, fun h hreq => ?_⟩,
    fun k s t a h => hostRun_eq_run h⟩
  · obtain ⟨t, ht⟩ := everyStepAnswersNext s
    exact ⟨t, ht, hostStep_of_next ht⟩
  · simp only [stepAnswer, h]
  · simp only [stepAnswer, h]
  · simp only [stepAnswer, h]
  · simp [stepAnswer, h, hreq]

/-- Settles O31: the fields of `raiseFault`, and a core that is not Running takes no cycle. -/
theorem faultEntryWritesFrAndStAndEndsRun : Obligations.FaultEntryWritesFrAndStAndEndsRun := by
  intro r s
  exact ⟨rfl, rfl, rfl, rfl, fun _ => rfl, ⟨rfl, rfl, rfl⟩, ⟨rfl, rfl, rfl⟩,
    run_of_step_self (step_of_not_running (by simp))⟩

/-- A BRA to its own address leaves PC where the fetch found it (R121). -/
theorem step_self_of_selfBranch {s : State} {p : Addr} (hfetch : s.FetchesAt p (600 + p.val)) (hiw : s.iw = none) :
    step s = .next s := by
  have ⟨⟨_, hreq, _⟩, hpc, _⟩ := hfetch
  have hdecode : Sys2Proof.decode (600 + p.val) = .instr (.bra p) := decode_of_digits rfl rfl
  have hback : ((s.beginCycle p).setPc (branchTarget p)).endCycle = { s with pc := p.castSucc, iw := none } := by
    simp [State.endCycle, State.setPc, State.beginCycle, branchTarget, hreq]
  rw [step_next_of_fetchesAt hfetch hdecode (exec_bra p _), hback, ← hpc, ← hiw]

/-- Settles O50: a self-branch is a fixed point of the step. -/
theorem selfBranchLoopsForever : Obligations.SelfBranchLoopsForever :=
  fun _ _ hs hiw hpc hword => run_of_step_self (step_self_of_selfBranch ⟨hs, hpc, hword⟩ hiw)

end Sys2Proof.Machine

/-! The invariant (spec R30, R31, R50, R131, R157): it holds after a reset, and every step and every host command keeps
it. -/

namespace Sys2Proof.Machine

/-! ### The invariant from its parts -/

/-- Settles O47: the reset state, part by part. -/
theorem resetSatisfiesInvariant : Obligations.ResetSatisfiesInvariant :=
  ⟨⟨rfl, rfl, rfl, rfl, rfl⟩, fun _ => ⟨rfl, rfl, rfl, rfl, rfl⟩⟩

/-- Between cycles the latch is right as soon as it is empty. -/
theorem State.inv_of_not_waiting {s : State} (hm : Memory.wf s.mem = true) (ho : s.outq.all OutEvent.wf = true)
    (hf : s.faultRecordFits = true) (hs : s.statusFits = true) (hr : s.inReq = false) (hi : s.iw = none) : s.Inv :=
  ⟨hm, ho, hf, by simp [State.latchFits, hr, hi], hs⟩

/-- The answers to come and the cancel input are the host's, and no part of the invariant. -/
theorem State.inv_of_script_cancel {s : State} (h : s.Inv) (script : List InAnswer) (cancel : Bool) :
    ({ s with script := script, cancel := cancel } : State).Inv := h

theorem OutEvent.all_wf_append {es : List OutEvent} {e : OutEvent} (hes : es.all OutEvent.wf = true)
    (he : e.wf = true) : (es ++ [e]).all OutEvent.wf = true := by
  simp only [List.all_append, hes, List.all_cons, he, List.all_nil, Bool.and_self]

theorem OutEvent.wf_value_decodeSigned (w : Word) : (OutEvent.value (decodeSigned w)).wf = true := by
  obtain ⟨hlo, hhi⟩ := decodeSigned_mem_range w
  simp [OutEvent.wf, hlo, hhi]

/-! ### Steps -/

/-- An INP that goes on keeps the invariant: it waits, faults with its own record, or completes (R133). -/
theorem inv_endCycle_serveInput {s : State} (h : s.Inv) (hreq : s.inReq = true) : (serveInput s).endCycle.Inv := by
  obtain ⟨hmem, houtq, hrecord, hlatch, -⟩ := id h
  obtain ⟨hst, -, hpc, hword, hlast⟩ := State.waiting_facts hlatch hreq
  have hfr := State.fr_of_not_faulted hrecord (by simp [hst])
  rcases serveInput_cases s with ⟨-, e⟩ | ⟨r, rest, -, e⟩ <;> rw [e]
  · rw [State.endCycle_eq_self s (.inl hreq)]
    exact h
  · rcases acceptAnswer_cases r (takeAnswer rest s) with ⟨-, e⟩ | ⟨_, -, -, e⟩ | ⟨_, -, -, -, e⟩ <;> rw [e]
    · refine State.inv_of_not_waiting hmem houtq ?_ rfl rfl rfl
      have hbelow (r : FaultRecord) : ((takeAnswer rest s).raiseFault r).endCycle.wordBelowPc = 901 := hword
      simp [State.faultRecordFits, State.executingAddress, hpc, hbelow, hlast]
    · exact State.inv_of_running hmem (OutEvent.all_wf_append houtq rfl) hfr hst rfl rfl
    · exact State.inv_of_running hmem houtq hfr hst rfl rfl

section
variable {s : State} {p : Addr}

/-- The request of an INP just fetched, before any answer, is a state with the invariant: that of a waiting INP. -/
theorem inv_requestInput_beginCycle (h : s.Inv) (hst : s.st = .running) (hword : s.memRead p = 901) :
    (requestInput ((s.beginCycle p).emit .prompt)).Inv := by
  obtain ⟨hmem, houtq, hrecord, -, -⟩ := h
  have hfr := State.fr_of_not_faulted hrecord (by simp [hst])
  have hbelow : (requestInput ((s.beginCycle p).emit .prompt)).wordBelowPc = 901 :=
    (State.wordBelowPc_of_fetch rfl rfl).trans (congrArg Fin.val hword)
  refine ⟨hmem, OutEvent.all_wf_append houtq rfl, ?_, ?_, ?_⟩
  · simp [State.faultRecordFits, hfr, hst]
  · simp [State.latchFits, hst, hword, hbelow]
  · simp [State.statusFits, hst]

theorem inv_halt_of_fetch (h : s.Inv) (hst : s.st = .running) (hreq : s.inReq = false)
    (hword : (s.memRead p).val < 100) : (s.beginCycle p).halt.endCycle.Inv := by
  obtain ⟨hmem, houtq, hrecord, -, -⟩ := h
  have hfr := State.fr_of_not_faulted hrecord (by simp [hst])
  have hbelow : (s.beginCycle p).halt.endCycle.wordBelowPc < 100 := (State.wordBelowPc_of_fetch rfl rfl).trans_lt hword
  refine State.inv_of_not_waiting hmem houtq ?_ ?_ hreq (State.endCycle_iw_of_not_waiting hreq)
  · simp [State.faultRecordFits, hfr]
  · simp [State.statusFits, hbelow]

theorem inv_illegal9_of_fetch {a : Addr} (h : s.Inv) (hreq : s.inReq = false)
    (hi : Sys2Proof.decode (s.memRead p).val = .instr (.illegal9 a)) (hcfg : s.cfg.ioOtherOperand = .fault) :
    ((s.beginCycle p).raiseFault (.invalidInstruction 9 (s.beginCycle p).executingAddress)).endCycle.Inv := by
  obtain ⟨hmem, houtq, -, -, -⟩ := h
  obtain ⟨hop, hinp, hout⟩ := word_of_decode_illegal9 hi
  have hbelow (r : FaultRecord) : ((s.beginCycle p).raiseFault r).endCycle.wordBelowPc = (s.memRead p).val :=
    State.wordBelowPc_of_fetch rfl rfl
  refine State.inv_of_not_waiting hmem houtq ?_ rfl hreq (State.endCycle_iw_of_not_waiting hreq)
  simp [State.faultRecordFits, hcfg, hbelow, hop, hinp, hout]

/-- The instruction of a fetching cycle leaves the invariant at the cycle's end: HLT, an illegal word and INP leave
the record or the word the invariant asks for; every other goes on Running. -/
theorem inv_endCycle_of_exec {i : Instr} {u : State} (h : s.Inv) (hst : s.st = .running) (hreq : s.inReq = false)
    (hi : Sys2Proof.decode (s.memRead p).val = .instr i) (hu : exec i (s.beginCycle p) = .next u) :
    u.endCycle.Inv := by
  obtain ⟨hmem, houtq, hrecord, -, -⟩ := id h
  have hfr := State.fr_of_not_faulted hrecord (by simp [hst])
  have hiw {t : State} (ht : t.inReq = s.inReq) : t.endCycle.iw = none :=
    State.endCycle_iw_of_not_waiting (ht.trans hreq)
  rcases exec_core_cases hu with ⟨a, rfl, rfl⟩ | ⟨_, -, rfl⟩ | ⟨a, -, rfl⟩ | ⟨-, rfl | rfl⟩ | ⟨rfl, rfl⟩ | ⟨-, rfl⟩
    | ⟨a, rfl, hcfg, rfl⟩ | ⟨_, -, -, rfl⟩
  -- HLT
  · obtain ⟨hop, -⟩ := opcode_of_decode hi
    simp only [Instr.opcode] at hop
    exact inv_halt_of_fetch h hst hreq (by omega)
  -- ADD, SUB, MUL, LDA
  · exact State.inv_of_running hmem houtq hfr hst hreq (hiw rfl)
  -- STA
  · exact State.inv_of_running (Memory.write_wf hmem _ a.isLt) houtq hfr hst hreq (hiw rfl)
  -- a branch, not taken and taken
  · exact State.inv_of_running hmem houtq hfr hst hreq (hiw rfl)
  · exact State.inv_of_running hmem houtq hfr hst hreq (hiw rfl)
  -- INP
  · have hword : s.memRead p = 901 := Fin.ext (word_of_decode_inp hi)
    exact inv_endCycle_serveInput (inv_requestInput_beginCycle h hst hword) rfl
  -- OUT
  · exact State.inv_of_running hmem (OutEvent.all_wf_append houtq (OutEvent.wf_value_decodeSigned _)) hfr hst hreq
      (hiw rfl)
  -- an illegal word, under the parameter value Fault and then under Nop
  · exact inv_illegal9_of_fetch h hreq hi hcfg
  · exact State.inv_of_running hmem houtq hfr hst hreq (hiw rfl)

end

/-- Settles O48: the cases of a step; the cancel and the failing PC check change ST and FR alone. -/
theorem stepKeepsInvariant : Obligations.StepKeepsInvariant := by
  intro s t h hstep
  obtain ⟨hmem, houtq, hrecord, hlatch, -⟩ := id h
  rcases step_cases hstep with ⟨-, rfl⟩ | ⟨-, hreq, rfl⟩ | ⟨hst, hreq, -, rfl⟩ | ⟨-, hreq, -, hpc, rfl⟩
    | ⟨hst, hreq, -, p, i, u, -, hi, hu, rfl⟩
  · exact h
  · exact inv_endCycle_serveInput h hreq
  · have hfr := State.fr_of_not_faulted hrecord (by simp [hst])
    have hiw := State.iw_of_not_waiting hlatch hreq
    refine State.inv_of_not_waiting hmem houtq ?_ rfl hreq hiw
    simp [State.faultRecordFits, hfr]
  · have hiw := State.iw_of_not_waiting hlatch hreq
    refine State.inv_of_not_waiting hmem houtq ?_ rfl hreq hiw
    simp [State.faultRecordFits, hpc]
  · exact inv_endCycle_of_exec h hst hreq hi hu

/-! ### Host commands -/

/-- Everything a load can leave: the state as it was, or the program copied and the run started (R58). -/
theorem load_fst_cases (xs : List Int) (s : State) :
    (load xs s).1 = s ∨ (s.st = .idle ∧ ∃ ws : List Word, ws.length ≤ 100
      ∧ (load xs s).1 = { s with mem := Memory.writeWords s.mem 0 ws, st := .running }) := by
  by_cases hst : s.st = .idle
  · by_cases hlen : xs.length ≤ 100
    · cases hws : admitWords xs with
      | none => exact .inl (congrArg Prod.fst (load_of_not_admitted hst hws))
      | some ws =>
        have hlength : ws.length = xs.length := by simp [← admitWords_map_val hws]
        exact .inr ⟨hst, ws, by omega, congrArg Prod.fst (load_of_admitted hst hlen hws)⟩
    · exact .inl (congrArg Prod.fst (load_of_too_long hst (by omega)))
  · exact .inl (congrArg Prod.fst (load_of_not_idle hst xs))

theorem inv_load (xs : List Int) {s : State} (h : s.Inv) : (load xs s).1.Inv := by
  obtain ⟨hmem, houtq, hrecord, hlatch, -⟩ := id h
  rcases load_fst_cases xs s with e | ⟨hst, ws, hlen, e⟩ <;> rw [e]
  · exact h
  · have hfr := State.fr_of_not_faulted hrecord (by simp [hst])
    have hreq : s.inReq = false := by
      by_contra hwait
      have ⟨hrunning, _⟩ := State.waiting_facts hlatch (by simpa using hwait)
      simp [hst] at hrunning
    have hiw := State.iw_of_not_waiting hlatch hreq
    exact State.inv_of_running (Memory.writeWords_wf ws 0 hmem (by omega)) houtq hfr rfl hreq hiw

theorem inv_applyCommand (c : HostCommand) {s : State} (h : s.Inv) : (applyCommand c s).Inv := by
  cases c with
  | load xs => exact inv_load xs h
  | step =>
    obtain ⟨t, ht⟩ := everyStepAnswersNext s
    simpa only [applyCommand, hostStep_of_next ht] using stepKeepsInvariant s t h ht
  | run fuel => exact hostRun_keeps stepKeepsInvariant fuel h
  | answer r =>
    obtain ⟨script, e⟩ := giveAnswer_eq r s
    rw [applyCommand, e]
    exact State.inv_of_script_cancel h script s.cancel
  | cancel b => exact State.inv_of_script_cancel h s.script b
  | reset => exact applyReset_inv s

/-- Settles O49: `inv_applyCommand`, and induction on how the state was reached. -/
theorem hostCommandsKeepInvariant : Obligations.HostCommandsKeepInvariant := by
  refine ⟨fun c s h => inv_applyCommand c h, fun s hs => ?_⟩
  obtain ⟨-, hreset⟩ := resetSatisfiesInvariant
  induction hs with
  | reset c => exact hreset c
  | command s c _ ih => exact inv_applyCommand c ih

end Sys2Proof.Machine

/-! Memory over a step (spec R50, R52, R61, R111, R186): equal memories are equal lists, a cell changes only by the STA
that names it, and the next cycle fetches the stored word. -/

namespace Sys2Proof.Machine

/-! ### Canonical lists -/

theorem Memory.wfFrom_cons_iff {k lo : Nat} {v : Word} {rest : Memory} :
    Memory.wfFrom ((k, v) :: rest) lo = true
      ↔ lo ≤ k ∧ k < 100 ∧ v ≠ Memory.unlisted ∧ Memory.wfFrom rest (k + 1) = true := by
  simp [Memory.wfFrom, and_assoc]

theorem Memory.read_head (k : Nat) (v : Word) (rest : Memory) : Memory.read ((k, v) :: rest) k = v := if_pos rfl

/-- The first listed cell is the least that does not read as an unlisted one. -/
theorem Memory.head_le_of_read_ne {k lo b : Nat} {v : Word} {rest : Memory}
    (h : Memory.wfFrom ((k, v) :: rest) lo = true) (hb : Memory.read ((k, v) :: rest) b ≠ Memory.unlisted) :
    k ≤ b := by
  obtain ⟨-, hk, hv, hrest⟩ := Memory.wfFrom_cons_iff.mp h
  have hfrom : Memory.wfFrom ((k, v) :: rest) k = true := Memory.wfFrom_cons_iff.mpr ⟨le_rfl, hk, hv, hrest⟩
  exact Nat.le_of_not_lt fun hlt => hb (Memory.read_below hfrom hlt)

/-- A canonical list is determined by what it reads: two of them begin at the same cell, with the same Word, and past
it they read the same. -/
theorem Memory.eq_of_read_eq {m n : Memory} {lo : Nat} (hm : Memory.wfFrom m lo = true)
    (hn : Memory.wfFrom n lo = true) (h : ∀ b, b < 100 → Memory.read m b = Memory.read n b) : m = n := by
  induction m generalizing n lo with
  | nil =>
    cases n with
    | nil => rfl
    | cons d n =>
      obtain ⟨k, w⟩ := d
      obtain ⟨-, hk, hw, -⟩ := Memory.wfFrom_cons_iff.mp hn
      exact absurd ((Memory.read_head k w n).symm.trans (h k hk).symm) hw
  | cons c m ih =>
    obtain ⟨j, v⟩ := c
    obtain ⟨-, hj, hv, hmrest⟩ := Memory.wfFrom_cons_iff.mp hm
    have hreadj := h j hj
    rw [Memory.read_head] at hreadj
    cases n with
    | nil => exact absurd hreadj hv
    | cons d n =>
      obtain ⟨k, w⟩ := d
      obtain ⟨-, hk, hw, hnrest⟩ := Memory.wfFrom_cons_iff.mp hn
      have hreadk := h k hk
      rw [Memory.read_head k w n] at hreadk
      have hkj : k ≤ j := Memory.head_le_of_read_ne hn (hreadj ▸ hv)
      have hjk : j ≤ k := Memory.head_le_of_read_ne hm (hreadk ▸ hw)
      obtain rfl : j = k := le_antisymm hjk hkj
      rw [Memory.read_head] at hreadj
      rw [hreadj, ih hmrest hnrest fun b hb => ?_]
      by_cases hbj : b < j + 1
      · rw [Memory.read_below hmrest hbj, Memory.read_below hnrest hbj]
      · have hreadb := h b hb
        rwa [Memory.read_listed, Memory.read_listed, if_neg (by omega), if_neg (by omega)] at hreadb

/-- Settles O45: `Memory.eq_of_read_eq` from address 0 on. -/
theorem canonicalMemoriesAreEqualData : Obligations.CanonicalMemoriesAreEqualData :=
  fun _ _ hm hn h => Memory.eq_of_read_eq hm hn fun b hb => h ⟨b, hb⟩

/-! ### Stores -/

theorem word_of_decode_sta {w : Nat} {a : Addr} (h : Sys2Proof.decode w = .instr (.sta a)) : w = 300 + a.val := by
  obtain ⟨hop, ha⟩ := opcode_of_decode h
  simp only [Instr.opcode, Instr.operand] at hop ha
  omega

/-- An instruction that changes a cell is the STA that names it, and the cell gets the accumulator. -/
theorem exec_sta_of_memRead_ne {i : Instr} {s t : State} {b : Addr} (hm : Memory.wf s.mem = true)
    (h : exec i s = .next t) (hb : t.memRead b ≠ s.memRead b) : i = .sta b ∧ t.memRead b = s.acc := by
  obtain ⟨a, rfl⟩ : ∃ a, i = .sta a := by
    by_contra hnot
    exact hb (State.memRead_congr (exec_mem_of_not_sta (fun a ha => hnot ⟨a, ha⟩) h) b)
  cases (exec_sta a s).symm.trans h
  obtain rfl : b = a := by
    by_contra hne
    exact hb (State.memRead_memWrite_ne s s.acc hne)
  exact ⟨rfl, State.memRead_memWrite_same s b s.acc hm⟩

/-- Settles O34: outside a fetching cycle a step keeps memory, and in one the change is the instruction's. -/
theorem onlyStaChangesMemoryInAStep : Obligations.OnlyStaChangesMemoryInAStep := by
  intro s t b hm hstep hb
  rcases step_cases hstep with ⟨-, rfl⟩ | ⟨-, -, rfl⟩ | ⟨-, -, -, rfl⟩ | ⟨-, -, -, -, rfl⟩
    | ⟨hst, hreq, hcancel, p, i, u, hpc, hi, hu, rfl⟩
  -- the fetching cycle
  case inr.inr.inr.inr =>
    obtain ⟨rfl, hacc⟩ := exec_sta_of_memRead_ne (s := s.beginCycle p) hm hu hb
    exact ⟨⟨hst, hreq, hcancel⟩, hacc, p, hpc, word_of_decode_sta hi⟩
  -- an INP that goes on
  case inr.inl =>
    obtain ⟨hmem, -, -⟩ := serveInput_frame s
    exact absurd (State.memRead_congr (t := (serveInput s).endCycle) hmem b) hb
  all_goals exact absurd rfl hb

/-- Settles O43: the frame of the storing cycle, and the cycle that fetches the stored word. -/
theorem storedWordIsFetchedByNextCycle : Obligations.StoredWordIsFetchedByNextCycle := by
  intro s p q hm hs hpc hword
  have hdecode : Sys2Proof.decode (300 + q.val) = .instr (.sta q) := decode_of_digits rfl rfl
  obtain ⟨t, ht, hcell, hother, hacc, htpc, ⟨hst, -⟩, ⟨-, hreq, -⟩, -, hcancel, hcfg⟩ :=
    step_sta_frame hm ⟨hs, hpc, hword⟩ hdecode
  obtain ⟨hrunning, hnone, hnot⟩ := hs
  have htready : t.Ready := ⟨hst.trans hrunning, hreq.trans hnone, (State.cancelTaken_congr hcancel hcfg).trans hnot⟩
  refine ⟨t, ht, htready, htpc, hacc, hcell, hother, fun i hq hi => ?_⟩
  have htq : t.pc = q.castSucc := htpc.trans (Fin.ext hq.symm)
  rw [← hcell] at hi ⊢
  exact stepRunsDecodedInstruction t q i htready htq hi

/-- Settles O44: a read of the memory the store left. -/
theorem ldaReadsTheLatestStore : Obligations.LdaReadsTheLatestStore := by
  intro s t a b hm h
  cases (exec_sta a s).symm.trans h
  refine ⟨_, exec_lda b _, ?_, fun hne => State.memRead_memWrite_ne s s.acc hne⟩
  rintro rfl
  exact State.memRead_memWrite_same s b s.acc hm

end Sys2Proof.Machine

/-! An INP's wait for the host (spec R30, R92, R97, R132, R135, R153): the request with no answer there, the answer that
comes late, and the answers a step takes. -/

namespace Sys2Proof.Machine

/-! ### The wait -/

/-- Inside an INP with no answer there a step changes nothing (R168). -/
theorem step_self_of_waiting {s : State} (hst : s.st = .running) (hreq : s.inReq = true) (hscript : s.script = []) :
    step s = .next s := by
  rw [step_of_waiting hst hreq, serveInput_nil hscript, State.endCycle_eq_self s (.inl hreq)]

/-- INP with no answer there emits the Prompt and makes its request. -/
theorem exec_inp_of_no_answer {s : State} (h : s.script = []) :
    exec .inp s = .next (requestInput (s.emit .prompt)) := by
  rw [exec_inp, serveInput_nil (s := requestInput (s.emit .prompt)) h]

/-- Settles O23: the request's frame, and the wait as a fixed point of the step. -/
theorem inpWaitsForTheHost : Obligations.InpWaitsForTheHost := by
  intro s hscript
  refine ⟨?_, fun hst hreq => run_of_step_self (step_self_of_waiting hst hreq hscript)⟩
  exact ⟨_, exec_inp_of_no_answer hscript, rfl, rfl, hscript, rfl, rfl, fun _ => rfl, ⟨rfl, rfl⟩, rfl, rfl, rfl⟩

/-! ### An answer that comes late -/

/-- The first answer to an outstanding request is taken (R132). -/
theorem giveAnswer_of_waiting {s : State} (hreq : s.inReq = true) (hscript : s.script = []) (r : InAnswer) :
    giveAnswer r s = { s with script := [r] } := by
  simp [giveAnswer, hreq, hscript]

/-- The step at which the answer is there finishes the cycle of the INP. -/
theorem step_of_waiting_answer {s : State} {r : InAnswer} {rest : List InAnswer} (hst : s.st = .running)
    (hreq : s.inReq = true) (hscript : s.script = r :: rest) :
    step s = .next (acceptAnswer r (takeAnswer rest s)).endCycle := by
  rw [step_of_waiting hst hreq, serveInput_cons hscript]

/-- The state of a core inside the INP fetched at `p`: the Prompt is out and the request is made (R132). -/
def State.inpRequest (s : State) (p : Addr) : State := requestInput ((s.beginCycle p).emit .prompt)

section
variable {s : State} {p : Addr}

theorem step_inp_of_no_answer (hfetch : s.FetchesAt p 901) (hscript : s.script = []) :
    step s = .next (s.inpRequest p) := by
  have hdecode : Sys2Proof.decode 901 = .instr .inp := decode_of_digits rfl rfl
  have hexec := exec_inp_of_no_answer (s := s.beginCycle p) hscript
  rw [step_next_of_fetchesAt hfetch hdecode hexec, State.endCycle_eq_self _ (.inl rfl)]
  rfl

theorem step_inp_of_answer {r : InAnswer} {rest : List InAnswer} (hfetch : s.FetchesAt p 901)
    (hscript : s.script = r :: rest) :
    step s = .next (acceptAnswer r (takeAnswer rest (s.inpRequest p))).endCycle := by
  have hdecode : Sys2Proof.decode 901 = .instr .inp := decode_of_digits rfl rfl
  exact step_next_of_fetchesAt hfetch hdecode (exec_inp_of_answer (s := s.beginCycle p) hscript)

/-- While the INP waits, IW holds its word: opcode 9 and operand 1 (R30). -/
theorem State.held_inpRequest (hword : (s.memRead p).val = 901) :
    (s.inpRequest p).heldOpcode = some 9 ∧ (s.inpRequest p).heldOperand = some 1 := by
  have hiw : (s.inpRequest p).iw = some 901 := congrArg some (Fin.ext hword)
  rw [State.heldOpcode, State.heldOperand, hiw]
  exact ⟨rfl, rfl⟩

end

/-- The step that takes the answer given during the wait. -/
theorem step_giveAnswer_of_waiting {s : State} (hst : s.st = .running) (hreq : s.inReq = true)
    (hscript : s.script = []) (r : InAnswer) :
    step (giveAnswer r s) = .next (acceptAnswer r (takeAnswer [] s)).endCycle := by
  rw [giveAnswer_of_waiting hreq hscript]
  exact step_of_waiting_answer (s := { s with script := [r] }) hst hreq rfl

theorem giveAnswer_setCancel {s : State} (hreq : s.inReq = true) (hscript : s.script = []) (r : InAnswer) (b : Bool) :
    giveAnswer r (setCancel b s) = setCancel b (giveAnswer r s) := by
  rw [giveAnswer_of_waiting hreq hscript]
  exact giveAnswer_of_waiting (s := setCancel b s) hreq hscript r

/-- Settles O24: with the answer there at once or given during the wait, the step that takes it accepts it in the same
state, that of the request with its answer taken; and inside an INP cancel is not sampled. -/
theorem inpAnswerDelayIsInvisible : Obligations.InpAnswerDelayIsInvisible := by
  intro s p r hs hscript hpc hword
  have ⟨hst, _⟩ := hs
  obtain ⟨hop, ha⟩ := State.held_inpRequest hword
  have hatOnce := step_inp_of_answer (s := { s with script := [r] }) (rest := []) ⟨hs, hpc, hword⟩ rfl
  have hlate := step_giveAnswer_of_waiting (s := s.inpRequest p) hst rfl hscript r
  have hreq : (giveAnswer r (s.inpRequest p)).inReq = true := by
    rw [giveAnswer_of_waiting (s := s.inpRequest p) rfl hscript]
    rfl
  have hdone : (acceptAnswer r (takeAnswer [] (s.inpRequest p))).inReq = false := acceptAnswer_inReq _ _
  refine ⟨s.inpRequest p, _, step_inp_of_no_answer ⟨hs, hpc, hword⟩ hscript, rfl, hst, rfl, rfl, hop, ha,
    run_of_step_self (step_self_of_waiting hst rfl hscript), hatOnce, hdone, State.endCycle_iw_of_not_waiting hdone,
    hlate, fun b => ?_⟩
  rw [giveAnswer_setCancel (s := s.inpRequest p) rfl hscript]
  exact step_setCancel b (.inl hreq) hlate

/-! ### The answers a step takes -/

theorem acceptAnswer_script (r : InAnswer) (s : State) : (acceptAnswer r s).script = s.script := by
  rcases acceptAnswer_cases r s with ⟨-, e⟩ | ⟨_, -, -, e⟩ | ⟨_, -, -, -, e⟩ <;> rw [e] <;> rfl

/-- The answers to come from `s` to `t` are the same, or the first of them was taken. -/
def TakesAtMostOneAnswer (s t : State) : Prop := t.script = s.script ∨ ∃ r, s.script = r :: t.script

theorem takesAtMostOneAnswer_serveInput (s : State) : TakesAtMostOneAnswer s (serveInput s) := by
  rcases serveInput_cases s with ⟨-, e⟩ | ⟨r, rest, hscript, e⟩
  · exact .inl (by rw [e])
  · exact .inr ⟨r, by rw [e, acceptAnswer_script, takeAnswer_script, hscript]⟩

theorem exec_script_of_ne_inp {i : Instr} {s t : State} (hi : i ≠ .inp) (h : exec i s = .next t) :
    t.script = s.script := by
  rcases exec_core_cases h with ⟨_, -, rfl⟩ | ⟨_, -, rfl⟩ | ⟨_, -, rfl⟩ | ⟨-, rfl | rfl⟩ | ⟨hinp, -⟩ | ⟨-, rfl⟩
    | ⟨_, -, -, rfl⟩ | ⟨_, -, -, rfl⟩
  -- INP
  case inr.inr.inr.inr.inl => exact absurd hinp hi
  all_goals rfl

/-- Settles O53: a step serves a request only inside an INP or where it fetched one, and a request served is over. -/
theorem onlyInpTakesAnAnswer : Obligations.OnlyInpTakesAnAnswer := by
  refine ⟨fun s t hstep => ?_, fun r rest s hscript => ⟨?_, fun hst hreq => ?_⟩⟩
  · rcases step_cases hstep with ⟨-, rfl⟩ | ⟨hst, hreq, rfl⟩ | ⟨-, -, -, rfl⟩ | ⟨-, -, -, -, rfl⟩
      | ⟨hst, -, -, p, i, u, hpc, hi, hu, rfl⟩
    -- an INP that goes on
    case inr.inl =>
      exact (takesAtMostOneAnswer_serveInput s).imp_right fun ⟨r, hr⟩ => ⟨r, hr, hst, .inl hreq⟩
    -- the fetching cycle
    case inr.inr.inr.inr =>
      by_cases hinp : i = .inp
      · subst hinp
        cases (exec_inp _).symm.trans hu
        exact (takesAtMostOneAnswer_serveInput (requestInput ((s.beginCycle p).emit .prompt))).imp_right
          fun ⟨r, hr⟩ => ⟨r, hr, hst, .inr ⟨p, hpc, word_of_decode_inp hi⟩⟩
      · have hsame := exec_script_of_ne_inp hinp hu
        exact .inl hsame
    all_goals exact .inl rfl
  · exact ⟨_, exec_inp_of_answer hscript, acceptAnswer_script _ _, acceptAnswer_inReq _ _⟩
  · exact ⟨_, step_of_waiting_answer hst hreq hscript, acceptAnswer_script _ _, acceptAnswer_inReq _ _⟩

/-! ### The fault of a late answer -/

/-- What the core ends at when the answer Fail comes while it waits (R153, R158). -/
theorem State.endCycle_raiseFault_takeAnswer (s : State) (rest : List InAnswer) (r : FaultRecord) :
    ((takeAnswer rest s).raiseFault r).endCycle
      = { s with st := .faulted, fr := some r, script := rest, inReq := false, iw := none } := rfl

/-- Settles O57: a waiting INP faults only by taking Fail, and the invariant gives what the wait holds. -/
theorem lateInputFaultIsPrecise : Obligations.LateInputFaultIsPrecise := by
  intro s t ⟨_, _, _, hlatch, _⟩ hreq hstep ht
  obtain ⟨hst, -, hpos, hword, hlast⟩ := State.waiting_facts hlatch hreq
  refine ⟨run_of_step_self (step_of_not_running (by simp [ht])), ?_⟩
  rw [step_of_waiting hst hreq] at hstep
  cases hstep
  obtain ⟨rest, hscript, e⟩ := serveInput_eq_of_faulted (by simp [hst]) ht
  have hlt := s.pc.isLt
  have hpc : s.pc = (⟨s.pc.val - 1, by omega⟩ : Addr).succ := Fin.ext (by simp only [Fin.val_succ]; omega)
  have had : s.executingAddress = ((s.pc.val - 1 : Nat) : Int) := by simp only [State.executingAddress]; omega
  exact ⟨_, rest, hpc, hword, hscript, hlast, by rw [e, State.endCycle_raiseFault_takeAnswer, had]⟩

end Sys2Proof.Machine

/-! What a step and a host command leave of the status, the events, the accumulator and the host's side (spec R6, R24,
R27, R29, R131), and the host's text (R137, R171). -/

namespace Sys2Proof.Machine

/-! ### The output stream -/

/-- OUTQ of `t` is that of `s` with at most `n` events appended. -/
def OutqGrowsBy (n : Nat) (s t : State) : Prop := ∃ es : List OutEvent, t.outq = s.outq ++ es ∧ es.length ≤ n

theorem OutqGrowsBy.of_eq {n : Nat} {s t : State} (h : t.outq = s.outq) : OutqGrowsBy n s t :=
  ⟨[], by rw [h, List.append_nil], Nat.zero_le n⟩

theorem OutqGrowsBy.trans {m n : Nat} {s t u : State} (hst : OutqGrowsBy m s t) (htu : OutqGrowsBy n t u) :
    OutqGrowsBy (m + n) s u := by
  obtain ⟨es, ht, hes⟩ := hst
  obtain ⟨fs, hu, hfs⟩ := htu
  exact ⟨es ++ fs, by rw [hu, ht, List.append_assoc], by rw [List.length_append]; omega⟩

theorem outqGrowsBy_acceptAnswer (r : InAnswer) (s : State) : OutqGrowsBy 1 s (acceptAnswer r s) := by
  rcases acceptAnswer_cases r s with ⟨-, e⟩ | ⟨_, -, -, e⟩ | ⟨_, -, -, -, e⟩ <;> rw [e]
  · exact .of_eq rfl
  · exact ⟨[.invalidInputDiag], rfl, le_rfl⟩
  · exact .of_eq rfl

theorem outqGrowsBy_serveInput (s : State) : OutqGrowsBy 1 s (serveInput s) := by
  rcases serveInput_cases s with ⟨-, e⟩ | ⟨r, rest, -, e⟩ <;> rw [e]
  · exact .of_eq rfl
  · exact outqGrowsBy_acceptAnswer r (takeAnswer rest s)

/-- An instruction emits at most two events: an INP's Prompt and diagnostic (R131). -/
theorem outqGrowsBy_of_exec {i : Instr} {s t : State} (h : exec i s = .next t) : OutqGrowsBy 2 s t := by
  by_cases hout : i = .out
  · subst hout
    cases (exec_out s).symm.trans h
    exact ⟨[.value (decodeSigned s.acc)], rfl, by simp⟩
  by_cases hinp : i = .inp
  · subst hinp
    cases (exec_inp s).symm.trans h
    have hprompt : OutqGrowsBy 1 s (requestInput (s.emit .prompt)) := ⟨[.prompt], rfl, le_rfl⟩
    exact hprompt.trans (outqGrowsBy_serveInput _)
  · exact .of_eq (exec_outq_of_not_console hout hinp h)

theorem outqGrowsBy_of_step {s t : State} (h : step s = .next t) : OutqGrowsBy 2 s t := by
  rcases step_cases h with ⟨-, rfl⟩ | ⟨-, -, rfl⟩ | ⟨-, -, -, rfl⟩ | ⟨-, -, -, -, rfl⟩
    | ⟨-, -, -, p, i, u, -, -, hu, rfl⟩
  -- an INP that goes on
  case inr.inl => exact (outqGrowsBy_serveInput s).trans (n := 1) (.of_eq rfl)
  -- the fetching cycle
  case inr.inr.inr.inr =>
    have hgrows := outqGrowsBy_of_exec hu
    exact hgrows
  all_goals exact .of_eq rfl

/-- Settles O37: by induction on the number of steps. -/
theorem outputStreamOnlyGrows : Obligations.OutputStreamOnlyGrows := by
  intro k s t h
  change OutqGrowsBy (2 * k) s t
  induction k generalizing s with
  | zero => cases h; exact .of_eq rfl
  | succ k ih =>
    obtain ⟨u, hu⟩ := everyStepAnswersNext s
    rw [run_succ hu] at h
    rw [Nat.mul_succ, Nat.add_comm]
    exact (outqGrowsBy_of_step hu).trans (ih u h)

/-! ### The status -/

/-- ST of `t` is that of `s`, or a fault was taken, with its record (R157). -/
def KeepsStatusOrFaults (s t : State) : Prop := t.st = s.st ∨ (t.st = .faulted ∧ t.fr ≠ none)

theorem keepsStatusOrFaults_serveInput (s : State) : KeepsStatusOrFaults s (serveInput s) := by
  rcases serveInput_cases s with ⟨-, e⟩ | ⟨r, rest, -, e⟩ <;> rw [e]
  · exact .inl rfl
  · rcases acceptAnswer_cases r (takeAnswer rest s) with ⟨-, e⟩ | ⟨_, -, -, e⟩ | ⟨_, -, -, -, e⟩ <;> rw [e]
    · exact .inr ⟨rfl, Option.some_ne_none _⟩
    · exact .inl rfl
    · exact .inl rfl

/-- An instruction changes ST only as the HLT or by a fault. -/
theorem exec_st_cases {i : Instr} {s t : State} (h : exec i s = .next t) :
    KeepsStatusOrFaults s t ∨ (t.st = .halted ∧ ∃ a, i = .hlt a) := by
  rcases exec_core_cases h with ⟨a, hi, rfl⟩ | ⟨_, -, rfl⟩ | ⟨_, -, rfl⟩ | ⟨-, rfl | rfl⟩ | ⟨-, rfl⟩ | ⟨-, rfl⟩
    | ⟨_, -, -, rfl⟩ | ⟨_, -, -, rfl⟩
  -- HLT
  case inl => exact .inr ⟨rfl, a, hi⟩
  -- INP
  case inr.inr.inr.inr.inl => exact .inl (keepsStatusOrFaults_serveInput (requestInput (s.emit .prompt)))
  -- an illegal word under the parameter value Fault
  case inr.inr.inr.inr.inr.inr.inl => exact .inl (.inr ⟨rfl, Option.some_ne_none _⟩)
  all_goals exact .inl (.inl rfl)

/-- A step that changes ST is a Running core's, and took a cancel, ran a HLT or faulted (R27). -/
theorem step_st_cases {s t : State} (h : step s = .next t) (hne : t.st ≠ s.st) :
    s.st = .running
      ∧ ((t.st = .stopped ∧ s.inReq = false ∧ s.cfg.cancelPresent = true ∧ s.cancel = true)
        ∨ (t.st = .halted ∧ ∃ p : Addr, s.pc = p.castSucc ∧ (s.memRead p).val < 100)
        ∨ (t.st = .faulted ∧ t.fr ≠ none)) := by
  rcases step_cases h with ⟨-, rfl⟩ | ⟨hst, -, rfl⟩ | ⟨hst, hreq, hcancel, rfl⟩ | ⟨hst, -, -, -, rfl⟩
    | ⟨hst, -, -, p, i, u, hpc, hi, hu, rfl⟩
  · exact absurd rfl hne
  · exact ⟨hst, .inr (.inr ((keepsStatusOrFaults_serveInput s).resolve_left hne))⟩
  · exact ⟨hst, .inl ⟨rfl, hreq, s.cancelTaken_iff.mp hcancel⟩⟩
  · exact ⟨hst, .inr (.inr ⟨rfl, Option.some_ne_none _⟩)⟩
  · rcases exec_st_cases hu with hkeeps | ⟨hhalt, a, rfl⟩
    · exact ⟨hst, .inr (.inr (hkeeps.resolve_left hne))⟩
    · obtain ⟨hop, -⟩ := opcode_of_decode hi
      simp only [Instr.opcode] at hop
      exact ⟨hst, .inr (.inl ⟨hhalt, p, hpc, by omega⟩)⟩

/-- Settles O38: `step_st_cases`, and the host's commands one by one. -/
theorem statusChangesOnlyByHltFaultCancelLoad : Obligations.StatusChangesOnlyByHltFaultCancelLoad := by
  refine ⟨fun s t h hne => step_st_cases h hne, fun c s hstep hreset hrun hne => ?_⟩
  cases c with
  | load xs =>
    rw [applyCommand] at hne ⊢
    rcases load_fst_cases xs s with e | ⟨hst, ws, -, e⟩ <;> rw [e] at hne ⊢
    · exact absurd rfl hne
    · exact ⟨hst, rfl, xs, rfl⟩
  | step => exact absurd rfl hstep
  | run fuel => exact absurd rfl (hrun fuel)
  | answer r =>
    obtain ⟨script, e⟩ := giveAnswer_eq r s
    rw [applyCommand, e] at hne
    exact absurd rfl hne
  | cancel b => exact absurd rfl hne
  | reset => exact absurd rfl hreset

/-! ### The parameters and the cancel input -/

/-- What stands outside the core and that no step touches: the parameters and the cancel input's level. -/
def SameConfigAndCancel (s t : State) : Prop := t.cfg = s.cfg ∧ t.cancel = s.cancel

theorem sameConfigAndCancel_of_step {s t : State} (h : step s = .next t) : SameConfigAndCancel s t := by
  rcases step_cases h with ⟨-, rfl⟩ | ⟨-, -, rfl⟩ | ⟨-, -, -, rfl⟩ | ⟨-, -, -, -, rfl⟩
    | ⟨-, -, -, p, i, u, -, -, hu, rfl⟩
  -- an INP that goes on
  case inr.inl =>
    obtain ⟨-, -, -, hcancel, hcfg⟩ := serveInput_frame s
    exact ⟨hcfg, hcancel⟩
  -- the fetching cycle
  case inr.inr.inr.inr =>
    obtain ⟨-, hcancel, hcfg⟩ := exec_sameRest hu
    exact ⟨hcfg, hcancel⟩
  all_goals exact ⟨rfl, rfl⟩

theorem sameConfigAndCancel_hostRun (k : Nat) (s : State) : SameConfigAndCancel s (hostRun k s).1 := by
  refine hostRun_keeps (P := SameConfigAndCancel s) (fun t u ⟨hcfg, hcancel⟩ hu => ?_) k ⟨rfl, rfl⟩
  obtain ⟨hcfg', hcancel'⟩ := sameConfigAndCancel_of_step hu
  exact ⟨hcfg'.trans hcfg, hcancel'.trans hcancel⟩

theorem sameConfigAndCancel_applyCommand {c : HostCommand} (hc : ∀ b, c ≠ .cancel b) (s : State) :
    SameConfigAndCancel s (applyCommand c s) := by
  cases c with
  | load xs =>
    rw [applyCommand]
    rcases load_fst_cases xs s with e | ⟨-, ws, -, e⟩ <;> rw [e] <;> exact ⟨rfl, rfl⟩
  | step =>
    obtain ⟨t, ht⟩ := everyStepAnswersNext s
    rw [applyCommand, hostStep_of_next ht]
    exact sameConfigAndCancel_of_step ht
  | run fuel => exact sameConfigAndCancel_hostRun fuel s
  | answer r =>
    obtain ⟨script, e⟩ := giveAnswer_eq r s
    rw [applyCommand, e]
    exact ⟨rfl, rfl⟩
  | cancel b => exact absurd rfl (hc b)
  | reset => exact ⟨rfl, rfl⟩

/-- Settles O54: every command but cancel keeps both, and cancel keeps the parameters. -/
theorem parametersAndCancelInputAreKept : Obligations.ParametersAndCancelInputAreKept := by
  intro c s
  by_cases hc : ∃ b, c = .cancel b
  · obtain ⟨b, rfl⟩ := hc
    exact ⟨rfl, fun hnot => absurd rfl (hnot b)⟩
  · obtain ⟨hcfg, hcancel⟩ := sameConfigAndCancel_applyCommand (fun b hb => hc ⟨b, hb⟩) s
    exact ⟨hcfg, fun _ => hcancel⟩

/-! ### What an instruction does not depend on -/

/-- The same state under other parameters. -/
def State.withCfg (c : Config) (s : State) : State := { s with cfg := c }

theorem acceptAnswer_withCfg (c : Config) (r : InAnswer) (s : State) :
    acceptAnswer r (s.withCfg c) = (acceptAnswer r s).withCfg c := by
  cases r with
  | fail => rfl
  | ok n =>
    simp only [acceptAnswer]
    split <;> rfl

theorem serveInput_withCfg (c : Config) (s : State) : serveInput (s.withCfg c) = (serveInput s).withCfg c := by
  rcases serveInput_cases s with ⟨hscript, e⟩ | ⟨r, rest, hscript, e⟩ <;> rw [e]
  · exact serveInput_nil hscript
  · rw [serveInput_cons (s := s.withCfg c) hscript]
    exact acceptAnswer_withCfg c r (takeAnswer rest s)

theorem branchIf_withCfg (c : Config) (b : Bool) (a : Addr) (s : State) :
    branchIf b a (s.withCfg c) = (branchIf b a s).withCfg c := by
  cases b <;> rfl

/-- Settles O55: no meaning but that of an illegal word reads the parameters. -/
theorem parametersMatterOnlyForIllegalWords : Obligations.ParametersMatterOnlyForIllegalWords := by
  intro i s t c hi h
  cases i with
  | hlt a | add a | sub a | sta a | mul a | lda a | bra a | out => cases h; rfl
  | brz a | brp a => cases h; exact congrArg _ (branchIf_withCfg c _ a s)
  | inp => cases h; exact congrArg _ (serveInput_withCfg c (requestInput (s.emit .prompt)))
  | illegal9 a => exact absurd rfl (hi a)

theorem exec_acc_of_not_writer {i : Instr} {s t : State} (hi : i.mnemonic ∉ ["ADD", "SUB", "MUL", "LDA", "INP"])
    (h : exec i s = .next t) : t.acc = s.acc := by
  rcases exec_core_cases h with ⟨_, -, rfl⟩ | ⟨_, hmem, -⟩ | ⟨_, -, rfl⟩ | ⟨-, rfl | rfl⟩ | ⟨rfl, -⟩ | ⟨-, rfl⟩
    | ⟨_, -, -, rfl⟩ | ⟨_, -, -, rfl⟩
  -- ADD, SUB, MUL, LDA
  case inr.inl => exact absurd (List.mem_append_left ["INP"] hmem) hi
  -- INP
  case inr.inr.inr.inr.inl => exact absurd (by simp [Instr.mnemonic]) hi
  all_goals rfl

/-- An answered integer sets the accumulator whatever it was (R133). -/
theorem acceptAnswer_ok_setAcc (n : Int) (v : Word) (s : State) :
    acceptAnswer (.ok n) (s.setAcc v) = acceptAnswer (.ok n) s := by
  simp only [acceptAnswer]
  split <;> rfl

/-- `u` is `t` but for the accumulator. -/
def SameButAcc (t u : State) : Prop := u = { t with acc := u.acc }

theorem sameButAcc_serveInput (v : Word) (s : State) : SameButAcc (serveInput s) (serveInput (s.setAcc v)) := by
  rcases serveInput_cases s with ⟨hscript, e⟩ | ⟨r, rest, hscript, e⟩ <;> rw [e]
  · rw [serveInput_nil (s := s.setAcc v) hscript]
    rfl
  · rw [serveInput_cons (s := s.setAcc v) hscript]
    cases r with
    | fail => rfl
    | ok n => exact acceptAnswer_ok_setAcc n v (takeAnswer rest s)

/-- HLT, BRA, INP, LDA and the illegal words do not read the accumulator: from another one they leave the same state
but for it. -/
theorem exec_setAcc_of_not_reader {i : Instr} {s t : State} (v : Word)
    (hi : i.mnemonic ∈ ["HLT", "BRA", "INP", "LDA", "ILLEGAL_9"]) (h : exec i s = .next t) :
    ∃ u, exec i (s.setAcc v) = .next u ∧ SameButAcc t u := by
  cases i with
  | hlt a | bra a | lda a => cases h; exact ⟨_, rfl, rfl⟩
  | inp => cases h; exact ⟨_, rfl, sameButAcc_serveInput v (requestInput (s.emit .prompt))⟩
  | illegal9 a =>
    cases hcfg : s.cfg.ioOtherOperand with
    | fault =>
      cases (exec_illegal9_fault hcfg a).symm.trans h
      exact ⟨_, exec_illegal9_fault (s := s.setAcc v) hcfg a, rfl⟩
    | nop =>
      cases (exec_illegal9_nop hcfg a).symm.trans h
      exact ⟨_, exec_illegal9_nop (s := s.setAcc v) hcfg a, rfl⟩
  | add a | sub a | sta a | mul a | brz a | brp a | out => simp [Instr.mnemonic] at hi

/-- Settles O35: the writers, the instructions that do not read the accumulator, and an INP answered Ok. -/
theorem accumulatorReadersAndWriters : Obligations.AccumulatorReadersAndWriters := by
  refine fun i s t h => ⟨fun hi => exec_acc_of_not_writer hi h, fun v hi => exec_setAcc_of_not_reader v hi h, ?_⟩
  rintro v n rest rfl hscript
  rw [← h, exec_inp_of_answer hscript]
  exact (exec_inp_of_answer (s := s.setAcc v) hscript).trans
    (congrArg _ (acceptAnswer_ok_setAcc n v (takeAnswer rest (requestInput (s.emit .prompt)))))

/-! ### The host's text -/

/-- Settles O56: each clause is an equation of `renderEvent`, `renderFault` or `exitStatus`. -/
theorem hostTextOfEventsAndEndings : Obligations.HostTextOfEventsAndEndings :=
  fun _ => ⟨rfl, rfl, fun _ => rfl, fun _ => rfl, fun _ _ => rfl, rfl, rfl, rfl⟩

end Sys2Proof.Machine
